-- ==== Sys2Proof/Config.lean ====
section
/-! DEFINITION. The implementation parameters of spec/00_scope.md R7, and the free value of the model:
the content of a buffer byte the host has not written since reset (R231). -/

namespace Sys2Proof.Config

/-- `BLOCK_SIZE`, fixed by R7. -/
abbrev blockSize : Nat := 128

/-- `ROOT_MIN_LEN`, fixed by R7. -/
abbrev rootMinLen : Nat := 128

/-- `SLOT_COUNT`, fixed by R7. -/
abbrev slotCount : Nat := 4

/-- `SLOT_SIZE`, fixed by R7. -/
abbrev slotSize : Nat := 18

/-- The offset of slot 0: `SLOT_BASE(0)` of R7. -/
abbrev slotOrigin : Nat := 54

/-- `MAX_BITS`, fixed by R7. -/
abbrev maxBits : Nat := 64

/-- `MAX_BITOFF`, fixed by R7. -/
abbrev maxBitoff : Nat := 7

/-- `WINDOW_BYTES`, fixed by R7. -/
abbrev windowBytes : Nat := 8

/-- `BYTEOFF_WIDTH`, decided by R7: the width of the BYTEOFF operand (R82 to R84). -/
abbrev byteoffWidth : Nat := 16

/-- `RESULT_WIDTH`, fixed by R7: the width of RESULT (R33) and of the extractor's window (R110). -/
abbrev resultWidth : Nat := 64

/-- The smallest `BUF_CAP` R7 allows. -/
abbrev bufCapMin : Nat := 128

/-- The largest `BUF_CAP` R7 allows. -/
abbrev bufCapMax : Nat := 32768

/-- The default `BUF_CAP` of R7. A machine's own capacity is the constant register
`Machine.State.bufCap`, so that a statement about all states holds for every capacity (log entry 2). -/
abbrev bufCapDefault : BitVec 32 := 32768#32

/-- `BLOCK_BASE`, the bus address of the register window: OPEN, a platform parameter (R7, R52, U13).
Nothing evaluates it and no rule depends on its value (log entry 3). -/
opaque blockBase : Nat

/-- The free value: what BUF byte `a` holds while the host has not written it since the `epoch`-th
reset. "each byte an independent arbitrary value" (R39), "a model takes each as an independent draw"
(R231, U5): no body, so nothing can be proved of it (log entry 1). -/
opaque unwrittenByte (epoch a : Nat) : BitVec 8

end Sys2Proof.Config
end

