-- ==== Sys2Proof/Word.lean ====
section
/-! DEFINITION. The widths BFX moves: a buffer byte, a bus word (CMD, STATUS, every register of the
window), and the 64-bit RESULT (spec/10_state.md R23, R33, R36). -/

namespace Sys2Proof

/-- One byte of BUF (R36). -/
abbrev Byte := BitVec 8

/-- One 32-bit bus word: a command word, or a register of the host window (R23, R80). -/
abbrev Word := BitVec 32

/-- RESULT and the extractor's window: `RESULT_WIDTH` bits (R7, R33, R110). -/
abbrev DWord := BitVec Config.resultWidth

end Sys2Proof
end

