-- ==== Sys2Proof/Syntax.lean ====
section
/-! DEFINITION. The BFX command set, version 1: one constructor per row of spec/opcode_table.json.
Operands are natural numbers, as the spec computes with them (spec/00_scope.md R11); which numbers an
encoding can hold is Sys2Proof/WellFormed.lean. -/

namespace Sys2Proof

/-- The seven commands (spec/30_encoding.md R89). -/
inductive Instr where
  /-- RDBITS byteoff, bitoff, count (R111). -/
  | rdbits (byteoff bitoff count : Nat)
  /-- RDBYTE byteoff (R112). -/
  | rdbyte (byteoff : Nat)
  /-- RDBYTES byteoff, n (R113). -/
  | rdbytes (byteoff nbytes : Nat)
  /-- CKSUM blk (R131). -/
  | cksum (blk : Nat)
  /-- VROOT (R132). -/
  | vroot
  /-- CLDESC slot (R159). -/
  | cldesc (slot : Nat)
  /-- CLEXT xidx (R175). -/
  | clext (xidx : Nat)
  deriving DecidableEq, Repr

/-- `RDU16 o` is `RDBITS o, 0, 16` (R97). -/
def Instr.rdu16 (o : Nat) : Instr := .rdbits o 0 16

/-- `RDU32 o` is `RDBITS o, 0, 32` (R97). -/
def Instr.rdu32 (o : Nat) : Instr := .rdbits o 0 32

/-- `RDU64 o` is `RDBITS o, 0, 64` (R97). -/
def Instr.rdu64 (o : Nat) : Instr := .rdbits o 0 64

/-- `RDFLAG o, b` is `RDBITS o, b, 1` (R97). -/
def Instr.rdflag (o b : Nat) : Instr := .rdbits o b 1

/-- The command a host must issue for the `n` bits from bit `p` of byte `o` when `p` may be 8 or more:
the normalisation that spec/70_reset_and_hazards.md R238 makes the caller's duty. -/
def Instr.normalised (o p n : Nat) : Instr := .rdbits (o + p / 8) (p % 8) n

end Sys2Proof
end

