-- ==== Sys2Proof/WellFormed.lean ====
section
/-! DEFINITION. Which instructions the assembler accepts (spec/30_encoding.md R95): every operand fits
its field. An operand that fits but lies outside the command's domain is well-formed; the command then
completes with E_DOMAIN (R95, R90). -/

namespace Sys2Proof

/-- BYTEOFF has `BYTEOFF_WIDTH` bits (R7, R82). -/
def fitsByteoff (o : Nat) : Bool := decide (o < 2 ^ Config.byteoffWidth)

/-- BITOFF has 4 bits (R82). -/
def fitsBitoff (b : Nat) : Bool := decide (b < 16)

/-- COUNT has 7 bits (R82). -/
def fitsCount (n : Nat) : Bool := decide (n < 128)

/-- NBYTES has 4 bits (R84). -/
def fitsNbytes (n : Nat) : Bool := decide (n < 16)

/-- BLK and XIDX have 8 bits (R85). -/
def fitsIndex (k : Nat) : Bool := decide (k < 256)

/-- SLOT has 2 bits, which number the `SLOT_COUNT` slots (R7, R87). -/
def fitsSlot (k : Nat) : Bool := decide (k < Config.slotCount)

/-- The assembler's check: "The assembler refuses an operand that does not fit its field" (R95). -/
def Instr.wf : Instr → Bool
  | .rdbits o b n => fitsByteoff o && fitsBitoff b && fitsCount n
  | .rdbyte o => fitsByteoff o
  | .rdbytes o n => fitsByteoff o && fitsNbytes n
  | .cksum k => fitsIndex k
  | .vroot => true
  | .cldesc k => fitsSlot k
  | .clext k => fitsIndex k

end Sys2Proof
end

