-- ==== Sys2Proof/Decode.lean ====
section
/-! DEFINITION. The command encoding (spec/30_encoding.md R80 to R95): the opcode map as a list of
mask and match rows, decoding by that list, total on every 32-bit word and rejecting by name, and the
assembler's encoding. -/

namespace Sys2Proof

/-- Bits `hi` down to `lo` of a command word as an unsigned number: `W[hi:lo]` (R8, R88). -/
def wordField (w : Word) (hi lo : Nat) : Nat := (w.extractLsb' lo (hi - lo + 1)).toNat

/-- The BYTEOFF field of formats FB, FO and FON, from bit 0 on (R81). -/
def byteoffField (w : Word) : Nat := wordField w (Config.byteoffWidth - 1) 0

/-- The opcode field `OP = W[31:28]` of every format (R80). -/
def opField (w : Word) : Nat := wordField w 31 28

/-- Why a word is no command; both give E_ILLEGAL when the word is executed (R90). -/
inductive DecodeError where
  /-- OP is 0x0 or 0x8 to 0xF (R92). -/
  | illegalOpcode
  /-- OP is defined and a reserved bit is set (R91). -/
  | reservedBitSet
  deriving DecidableEq, Repr

/-- One row of the opcode map (R89): it selects the words `w` with `w &&& mask = value`, and reads the
operand fields of the row's format (R81). -/
structure OpcodeRow where
  mask : Word
  value : Word
  fields : Word → Instr

/-- "a word W selects the row when (W & mask) == match" (R89). -/
def OpcodeRow.selects (r : OpcodeRow) (w : Word) : Bool := (w &&& r.mask) == r.value

/-- Format FB (R82): COUNT = W[26:20], BITOFF = W[19:16], BYTEOFF = W[15:0]. -/
def rowRdbits : OpcodeRow :=
  ⟨0xF8000000#32, 0x10000000#32,
    fun w => .rdbits (byteoffField w) (wordField w 19 16) (wordField w 26 20)⟩

/-- Format FO (R83): BYTEOFF = W[15:0]. -/
def rowRdbyte : OpcodeRow :=
  ⟨0xFFFF0000#32, 0x20000000#32, fun w => .rdbyte (byteoffField w)⟩

/-- Format FON (R84): NBYTES = W[19:16], BYTEOFF = W[15:0]. -/
def rowRdbytes : OpcodeRow :=
  ⟨0xFFF00000#32, 0x30000000#32, fun w => .rdbytes (byteoffField w) (wordField w 19 16)⟩

/-- Format FI (R85): BLK = W[7:0]. -/
def rowCksum : OpcodeRow :=
  ⟨0xFFFFFF00#32, 0x40000000#32, fun w => .cksum (wordField w 7 0)⟩

/-- Format FN (R86): the one word 0x5000_0000. -/
def rowVroot : OpcodeRow :=
  ⟨0xFFFFFFFF#32, 0x50000000#32, fun _ => .vroot⟩

/-- Format FS (R87): SLOT = W[1:0]. -/
def rowCldesc : OpcodeRow :=
  ⟨0xFFFFFFFC#32, 0x60000000#32, fun w => .cldesc (wordField w 1 0)⟩

/-- Format FI (R85): XIDX = W[7:0]. -/
def rowClext : OpcodeRow :=
  ⟨0xFFFFFF00#32, 0x70000000#32, fun w => .clext (wordField w 7 0)⟩

/-- The opcode map, in the order of R89. -/
def opcodeRows : List OpcodeRow :=
  [rowRdbits, rowRdbyte, rowRdbytes, rowCksum, rowVroot, rowCldesc, rowClext]

/-- Decoding a command word by the opcode map (R90). Domains are not checked here. -/
def decode (w : Word) : Except DecodeError Instr :=
  match opcodeRows.find? (fun r => r.selects w) with
  | some r => .ok (r.fields w)
  | none => .error (if opField w = 0 ∨ 8 ≤ opField w then .illegalOpcode else .reservedBitSet)

/-- The OP value of each command (R89). -/
def Instr.op : Instr → Nat
  | .rdbits _ _ _ => 1
  | .rdbyte _ => 2
  | .rdbytes _ _ => 3
  | .cksum _ => 4
  | .vroot => 5
  | .cldesc _ => 6
  | .clext _ => 7

/-- A field's value placed at bit `lo` of a command word. -/
def fieldAt (v lo : Nat) : Word := BitVec.ofNat 32 v <<< lo

/-- The word of a well-formed command, by the table of R95. -/
def encode : Instr → Word
  | .rdbits o b n => 0x10000000#32 ||| fieldAt n 20 ||| fieldAt b 16 ||| fieldAt o 0
  | .rdbyte o => 0x20000000#32 ||| fieldAt o 0
  | .rdbytes o n => 0x30000000#32 ||| fieldAt n 16 ||| fieldAt o 0
  | .cksum k => 0x40000000#32 ||| fieldAt k 0
  | .vroot => 0x50000000#32
  | .cldesc k => 0x60000000#32 ||| fieldAt k 0
  | .clext k => 0x70000000#32 ||| fieldAt k 0

/-- The assembler of R95: the word of a command whose operands fit, and a refusal of any other. -/
def assemble (i : Instr) : Option Word := if i.wf then some (encode i) else none

/-- The 32-bit command word of an opcode-table entry: the table's `nbits` bits, zeros above. BFX has no
byte order here: CMD is written as one whole 32-bit word (R80, D24). -/
def tableWord (nbits w : Nat) : Word := BitVec.ofNat 32 (w % 2 ^ nbits)

/-- The instruction the decoder reads from an opcode-table word of `nbits` bits. -/
def decodeTableWord (nbits w : Nat) : Option Instr :=
  match decode (tableWord nbits w) with
  | .ok i => some i
  | .error _ => none

end Sys2Proof
end

