-- ==== Sys2Proof/Machine/State.lean ====
section
/-! DEFINITION. The state of BFX (spec/10_state.md), the outside world's turns that a run consumes,
the values host reads returned, and the reasons a step can stop. Plain data throughout. -/

namespace Sys2Proof.Machine

/-- One host bus access, at a byte offset from BLOCK_BASE inside the 64 KiB window (R52). Every width
can be written down: which of them BFX admits is R53. -/
inductive HostAccess where
  /-- A read of `bits` bits at `off`. -/
  | read (bits : Nat) (off : BitVec 16)
  /-- A write of the low `bits` bits of `v` at `off`. -/
  | write (bits : Nat) (off : BitVec 16) (v : Word)
  deriving DecidableEq, Repr

/-- One turn of a run: which agent moves next (R20, R212), or the platform's reset (R230). The order of
turns is free, so a claim quantifies over schedules (log entry 4). -/
inductive Turn where
  /-- The reset input is asserted and released. -/
  | reset
  /-- The engine takes its step, if a command is pending; with none pending it has no step (R27). -/
  | engine
  /-- The host makes one bus access. -/
  | host (a : HostAccess)
  deriving DecidableEq, Repr

/-- A value a host read returned (R240): a register word, or a byte of the BUF port (R53). -/
inductive ReadValue where
  | word (v : Word)
  | byte (v : Byte)
  deriving DecidableEq, Repr

/-- The bytes of BUF written since the last reset, as address and byte pairs in the one canonical form
of `Memory.wf`. An unlisted address holds no written byte. -/
abbrev Memory := List Host.Cell

/-- Everything the spec gives BFX, and four fields of the model's own. -/
structure State where
  /-- PENDING (R25): the command word, meaningful while BUSY = 1. -/
  pending : Word
  /-- STATUS.BUSY (R27). -/
  busy : Bool
  /-- STATUS.DONE (R28). -/
  done : Bool
  /-- STATUS.ERR (R29). -/
  err : Bool
  /-- STATUS.ECODE (R30). -/
  ecode : BitVec 4
  /-- STATUS.ROOT_OK (R31). -/
  rootOk : Bool
  /-- STATUS.EXTCNT (R32). -/
  extCnt : BitVec 8
  /-- RESULT (R33). -/
  result : DWord
  /-- BUF_LEN (R34): the 16 stored bits. -/
  bufLen : BitVec 16
  /-- BUF_CAP (R35): a constant register, the machine's capacity. No turn changes it. -/
  bufCap : Word
  /-- BUF (R36): the bytes the host has written since reset. -/
  buf : Memory
  /-- The model's own: how many reset events there have been, so that the unwritten bytes after each
  are a fresh draw (R231). -/
  epoch : Nat
  /-- The model's own: the turns still to come, earliest first. -/
  schedule : List Turn
  /-- The model's own record of an observation the spec names (R240): the values host reads have
  returned, earliest first. -/
  hostReads : List ReadValue
  deriving DecidableEq, Repr

/-- Why the machine stops. Safe: an implementation may go on in any way (R209), and the model then
proves nothing of it. -/
inductive Fault where
  /-- HOST_HAZARD: raised by a host access other than a 32-bit read of STATUS while BUSY = 1 (R209).
  Safe ("This errs toward unprovable"). -/
  | hostHazard
  deriving DecidableEq, Repr

/-- Why the model gives a turn no meaning. -/
inductive Refusal where
  /-- An instruction of the opcode table without a meaning; no arm of `exec` answers it now. Safe. -/
  | notModelled (mnemonic : String)
  /-- A host access of a width or alignment that R53 does not admit (R210). Safe ("This errs toward
  unprovable"). -/
  | accessNotAdmitted
  deriving DecidableEq, Repr

/-- The machine right after reset, as the table of R39 says; PENDING, which R39 leaves unspecified, is
zero (log entry 5), nothing has been written to BUF, and no turn is scheduled. -/
def State.reset : State where
  pending := 0#32
  busy := false
  done := false
  err := false
  ecode := 0#4
  rootOk := false
  extCnt := 0#8
  result := 0#64
  bufLen := 0#16
  bufCap := Config.bufCapDefault
  buf := []
  epoch := 0
  schedule := []
  hostReads := []

end Sys2Proof.Machine
end

