-- ==== Sys2Proof/Machine/Flags.lean ====
section
/-! DEFINITION. STATUS: its layout as the host reads it, the error codes, and the three ways its fields
are written outside the completion of a command (spec/10_state.md R26 to R32, spec/60_exceptions.md
R201). BFX has no other flags (R37). -/

namespace Sys2Proof.Machine

/-- The nine error codes (R201). -/
inductive ErrorCode where
  | illegal
  | domain
  | rootShort
  | rootMagic
  | rootChecksum
  | rootVersion
  | noRoot
  | range
  | extChecksum
  deriving DecidableEq, Repr

/-- The number of an error code in STATUS.ECODE (R201). -/
def ErrorCode.number : ErrorCode → BitVec 4
  | .illegal => 1#4
  | .domain => 2#4
  | .rootShort => 3#4
  | .rootMagic => 4#4
  | .rootChecksum => 5#4
  | .rootVersion => 6#4
  | .noRoot => 7#4
  | .range => 8#4
  | .extChecksum => 9#4

/-- A one-bit field. -/
def flagBit (b : Bool) : BitVec 1 := BitVec.ofBool b

/-- The word a host read of STATUS returns: the fields of R26 in their places, reserved bits 0. -/
def statusWord (s : State) : Word :=
  0#8 ++ s.extCnt ++ 0#7 ++ flagBit s.rootOk ++ s.ecode ++ 0#1 ++
    flagBit s.err ++ flagBit s.done ++ flagBit s.busy

/-- ROOT_OK <- 1 and EXTCNT <- `n`: a VROOT that succeeds (R137). -/
def latchRoot (n : Byte) (s : State) : State := { s with rootOk := true, extCnt := n }

/-- ROOT_OK <- 0 and EXTCNT <- 0: a VROOT that fails (R138), and a write of BUF or BUF_LEN (R55, R57). -/
def clearRoot (s : State) : State := { s with rootOk := false, extCnt := 0#8 }

end Sys2Proof.Machine
end

