-- ==== Sys2Proof/Machine/Ops.lean ====
section
/-! DEFINITION. The named operations every command and every host access is built from: the buffer's
bytes, the little-endian read, the byte sum, the two ways a command completes, the CMD write that
begins one, and the reset event. -/

namespace Sys2Proof.Machine

/-! ### The written bytes of BUF -/

/-- The byte listed at address `a`, or none where nothing is listed. What an unlisted address reads as
at this level is "no value"; `rawByte` puts the free value there. -/
def Memory.lookup : Memory → Nat → Option Byte
  | [], _ => none
  | (b, v) :: m, a => if a = b then some v else Memory.lookup m a

/-- Store byte `v` at address `a`, keeping addresses strictly rising. -/
def Memory.store : Memory → Nat → Byte → Memory
  | [], a, v => [(a, v)]
  | (b, w) :: m, a, v =>
    if a < b then (a, v) :: (b, w) :: m
    else if a = b then (a, v) :: m
    else (b, w) :: Memory.store m a v

/-- Every listed address is above `b`. -/
def Memory.above (b : Nat) (m : Memory) : Bool := m.all fun c => decide (b < c.1)

/-- The canonical form: addresses strictly rising. No entry equals what an unlisted address reads as,
since that is no value and an entry holds one. -/
def Memory.wf : Memory → Bool
  | [] => true
  | (a, _) :: m => Memory.above a m && Memory.wf m

/-- Every listed address lies in the buffer: `a < cap` (R36). -/
def Memory.within (cap : Nat) (m : Memory) : Bool := m.all fun c => decide (c.1 < cap)

/-- `BUF[a]`, the stored byte (R10, R36): what the host wrote last, or the free value where the host
has written nothing since reset (R231). -/
def rawByte (s : State) (a : Nat) : Byte :=
  (Memory.lookup s.buf a).getD (Config.unwrittenByte s.epoch a)

/-- `B(a)`, the byte the engine reads: zero at and past BUF_LEN, with no wrap-around (R10, R51). -/
def paddedByte (s : State) (a : Nat) : Byte :=
  if a < s.bufLen.toNat then rawByte s a else 0#8

/-- `MemRead(a, n)`, little-endian: `B(a+n-1) ++ ... ++ B(a)` (R10, R50). -/
def memRead (s : State) (a : Nat) : (n : Nat) → BitVec (8 * n)
  | 0 => 0#0
  | n + 1 => (paddedByte s (a + n) ++ memRead s a n).cast (by omega)

/-- The exact sum of the `n` stored bytes from `a`: the reducer reads BUF, not the padded bytes (R130). -/
def byteSum (s : State) (a : Nat) : Nat → Nat
  | 0 => 0
  | n + 1 => byteSum s a n + (rawByte s (a + n)).toNat

/-- `Sum8(a)`: the sum of one 128-byte block, modulo 256 (R130). -/
def sum8 (s : State) (a : Nat) : Byte := BitVec.ofNat 8 (byteSum s a Config.blockSize)

/-! ### Completion of a command -/

/-- `finish(v)` (R202): RESULT <- v, BUSY <- 0, DONE <- 1. ERR and ECODE keep the 0 the CMD write gave
them. -/
def finish (v : DWord) (s : State) : State :=
  { s with result := v, busy := false, done := true }

/-- `raise E(code)` (R203): the one way a command fails. It is all BFX has of an exception: no handler,
no saved state, RESULT unchanged (R200, R208). -/
def raiseError (c : ErrorCode) (s : State) : State :=
  { s with err := true, ecode := c.number, busy := false, done := true }

/-- The CMD write (R24), with BUSY = 0. It is also what ends an error: it clears ERR and ECODE, and
nothing else acknowledges one (R208). -/
def cmdWrite (w : Word) (s : State) : State :=
  { s with pending := w, busy := true, done := false, err := false, ecode := 0#4 }

/-! ### Host writes and reads -/

/-- The host buffer write `MemWrite(a, 1, v)` (R55), for `a` below BUF_CAP. -/
def bufWrite (a : Nat) (v : Byte) (s : State) : State :=
  clearRoot { s with buf := Memory.store s.buf a v }

/-- The value BUF_LEN stores for a written word: `min(v, BUF_CAP)` (R34, R57). -/
def clampedLen (cap v : Word) : BitVec 16 := BitVec.ofNat 16 (min v.toNat cap.toNat)

/-- The host BUF_LEN write (R57). -/
def lenWrite (v : Word) (s : State) : State :=
  clearRoot { s with bufLen := clampedLen s.bufCap v }

/-- A host read returns `v` and changes nothing (R58, R61); the model records what it returned. -/
def returnRead (v : ReadValue) (s : State) : State := { s with hostReads := s.hostReads ++ [v] }

/-! ### Reset -/

/-- The reset event, in any state (R230 to R232): the state of R39 over the same capacity, a pending
command discarded without effect, BUF's bytes a fresh draw. The turns still to come and the values
already returned are outside the block and stay. -/
def resetEvent (s : State) : State :=
  { State.reset with
    bufCap := s.bufCap
    epoch := s.epoch + 1
    schedule := s.schedule
    hostReads := s.hostReads }

end Sys2Proof.Machine
end

