-- ==== Sys2Proof/Machine/Operands.lean ====
section
/-! DEFINITION. Operands: the two scaled forms (spec/30_encoding.md R88), the operand ranges, and the
extractor's datapath that the unscaled forms feed (spec/40_bitfield.md R110). -/

namespace Sys2Proof.Machine

/-- The base of block `k`: "base = 128 * IDX" (R88). -/
def blockOffset (k : Nat) : Nat := Config.blockSize * k

/-- The base of slot `k`: "base = 54 + 18 * SLOT" (R88, R150). -/
def slotOffset (k : Nat) : Nat := Config.slotOrigin + Config.slotSize * k

/-- The block from `base` lies wholly below the buffer end (R131, R172). -/
def blockBelowEnd (s : State) (base : Nat) : Bool :=
  decide (base + Config.blockSize ≤ s.bufLen.toNat)

/-- The mask of the low `n` bits of the window, `n` from 1 to 64 (R110). -/
def lowMask (n : Nat) : DWord :=
  if n = Config.maxBits then 0xFFFFFFFFFFFFFFFF#64 else BitVec.ofNat 64 (2 ^ n - 1)

/-- `ReadBits(o, b, n)` (R110): the 8-byte window, shifted right by `b`, masked to `n` bits. -/
def readBits (s : State) (o b n : Nat) : DWord :=
  (memRead s o Config.windowBytes >>> b) &&& lowMask n

end Sys2Proof.Machine
end

