-- ==== Sys2Proof/Machine/Bitfield.lean ====
section
/-! DEFINITION. The bit-field extractor commands RDBITS, RDBYTE and RDBYTES (spec/40_bitfield.md). They
read BUF and BUF_LEN only, and run with or without a validated root (R116). -/

namespace Sys2Proof.Machine

/-- RDBITS (R111). -/
def execRdbits (byteoff bitoff count : Nat) (s : State) : Host.Outcome State Fault Refusal :=
  if bitoff > Config.maxBitoff then .next (raiseError .domain s)
  else if count < 1 ∨ count > Config.maxBits then .next (raiseError .domain s)
  else .next (finish (readBits s byteoff bitoff count) s)

/-- RDBYTE (R112). -/
def execRdbyte (byteoff : Nat) (s : State) : Host.Outcome State Fault Refusal :=
  .next (finish (readBits s byteoff 0 8) s)

/-- RDBYTES (R113). -/
def execRdbytes (byteoff nbytes : Nat) (s : State) : Host.Outcome State Fault Refusal :=
  if nbytes > Config.windowBytes then .next (raiseError .domain s)
  else if nbytes = 0 then .next (finish 0#64 s)
  else .next (finish (readBits s byteoff 0 (8 * nbytes)) s)

end Sys2Proof.Machine
end

