-- ==== Sys2Proof/Machine/Checksum.lean ====
section
/-! DEFINITION. The checksum validator CKSUM and the root validation cascade VROOT
(spec/41_checksum_root.md). -/

namespace Sys2Proof.Machine

/-- CKSUM (R131): it reports the sum of a whole block below BUF_LEN and does not judge it. -/
def execCksum (blk : Nat) (s : State) : Host.Outcome State Fault Refusal :=
  if blockBelowEnd s (blockOffset blk) then
    .next (finish ((sum8 s (blockOffset blk)).setWidth Config.resultWidth) s)
  else .next (raiseError .range s)

/-- The fixed header of the root record at offsets 0 to 7 (R12, R134). -/
def rootMagic : List Byte := [0x00#8, 0xFF#8, 0xFF#8, 0xFF#8, 0xFF#8, 0xFF#8, 0xFF#8, 0x00#8]

/-- The bytes listed stand in BUF one after another from offset `a`. -/
def bytesMatch (s : State) : Nat → List Byte → Bool
  | _, [] => true
  | a, v :: vs => rawByte s a == v && bytesMatch s (a + 1) vs

/-- Check 1 (R133): the root's 128 bytes lie below BUF_LEN. -/
def rootLengthOk (s : State) : Bool := decide (Config.rootMinLen ≤ s.bufLen.toNat)

/-- Check 2 (R134): the magic, byte for byte. -/
def rootMagicOk (s : State) : Bool := bytesMatch s 0 rootMagic

/-- Check 3 (R135): the checksum invariant of the root block. -/
def rootSumOk (s : State) : Bool := sum8 s 0 == 0#8

/-- Check 4 (R136): version major is 1 and version minor at least 1. -/
def rootVersionOk (s : State) : Bool :=
  rawByte s 18 == 1#8 && decide (1 ≤ (rawByte s 19).toNat)

/-- The first check that fails, in the order of R132. -/
def rootFailure (s : State) : Option ErrorCode :=
  if rootLengthOk s = false then some .rootShort
  else if rootMagicOk s = false then some .rootMagic
  else if rootSumOk s = false then some .rootChecksum
  else if rootVersionOk s = false then some .rootVersion
  else none

/-- RESULT of a VROOT that succeeds: `zext_64(BUF[126] ++ BUF[19] ++ BUF[18])` (R132). -/
def rootResult (s : State) : DWord :=
  (rawByte s 126 ++ rawByte s 19 ++ rawByte s 18).setWidth Config.resultWidth

/-- VROOT (R132): the record is latched on success (R137) and withdrawn on failure (R138). -/
def execVroot (s : State) : Host.Outcome State Fault Refusal :=
  match rootFailure s with
  | some c => .next (raiseError c (clearRoot s))
  | none => .next (finish (rootResult s) (latchRoot (rawByte s 126) s))

end Sys2Proof.Machine
end

