-- ==== Sys2Proof/Machine/Descriptor.lean ====
section
/-! DEFINITION. The descriptor classifier CLDESC: six structural predicates on five header bytes and a
priority multiplexer (spec/42_descriptor.md). -/

namespace Sys2Proof.Machine

/-- The variants of a descriptor slot (R160). -/
inductive Variant where
  | noMatch
  | detailedTiming
  | additionalStandardTiming
  | additionalWhitePoint
  | monitorRangeLimits
  | stringDescriptor
  | manufacturerDescriptor
  deriving DecidableEq, Repr

/-- The code of a variant in RESULT[2:0] (R160). -/
def Variant.code : Variant → BitVec 3
  | .noMatch => 0#3
  | .detailedTiming => 1#3
  | .additionalStandardTiming => 2#3
  | .additionalWhitePoint => 3#3
  | .monitorRangeLimits => 4#3
  | .stringDescriptor => 5#3
  | .manufacturerDescriptor => 6#3

/-- The kinds of a string descriptor; every other variant has none (R155). -/
inductive StringKind where
  | notString
  | monitorName
  | serialNumber
  | unspecifiedText
  deriving DecidableEq, Repr

/-- SKIND in RESULT[5:4] (R155). -/
def StringKind.code : StringKind → BitVec 2
  | .notString => 0#2
  | .monitorName => 1#2
  | .serialNumber => 2#2
  | .unspecifiedText => 3#2

/-- The five header bytes of a slot (R150). -/
structure Header where
  h0 : Byte
  h1 : Byte
  h2 : Byte
  h3 : Byte
  h4 : Byte
  deriving DecidableEq, Repr

/-- The header the matcher reads at a slot's base (R150). -/
def headerAt (s : State) (base : Nat) : Header :=
  ⟨rawByte s base, rawByte s (base + 1), rawByte s (base + 2), rawByte s (base + 3),
    rawByte s (base + 4)⟩

/-- The header has the display form `00 00 00 tag 00` (R152 to R155). -/
def Header.isDisplay (h : Header) (tag : Byte) : Bool :=
  h.h0 == 0#8 && h.h1 == 0#8 && h.h2 == 0#8 && h.h3 == tag && h.h4 == 0#8

/-- DetailedTiming: the 16-bit pixel clock is not zero (R151). -/
def Header.isDetailedTiming (h : Header) : Bool := (h.h1 ++ h.h0) != 0#16

/-- AdditionalStandardTiming (R152). -/
def Header.isStandardTiming (h : Header) : Bool := h.isDisplay 0xFA#8

/-- AdditionalWhitePoint (R153). -/
def Header.isWhitePoint (h : Header) : Bool := h.isDisplay 0xFB#8

/-- MonitorRangeLimits (R154). -/
def Header.isRangeLimits (h : Header) : Bool := h.isDisplay 0xFD#8

/-- StringDescriptor (R155). -/
def Header.isString (h : Header) : Bool :=
  h.isDisplay 0xFC#8 || h.isDisplay 0xFF#8 || h.isDisplay 0xFE#8

/-- The string kind a tag names (R155). -/
def stringKindOf (tag : Byte) : StringKind :=
  if tag = 0xFC#8 then .monitorName
  else if tag = 0xFF#8 then .serialNumber
  else if tag = 0xFE#8 then .unspecifiedText
  else .notString

/-- ManufacturerDescriptor: h0 = h1 = h2 = h4 = 0 and h3 at most 15 (R156). -/
def Header.isManufacturer (h : Header) : Bool :=
  h.h0 == 0#8 && h.h1 == 0#8 && h.h2 == 0#8 && h.h4 == 0#8 && decide (h.h3.toNat ≤ 15)

/-- The priority multiplexer: the first predicate that holds, in the order of R157. -/
def classify (h : Header) : Variant × StringKind :=
  if h.isDetailedTiming then (.detailedTiming, .notString)
  else if h.isStandardTiming then (.additionalStandardTiming, .notString)
  else if h.isWhitePoint then (.additionalWhitePoint, .notString)
  else if h.isRangeLimits then (.monitorRangeLimits, .notString)
  else if h.isString then (.stringDescriptor, stringKindOf h.h3)
  else if h.isManufacturer then (.manufacturerDescriptor, .notString)
  else (.noMatch, .notString)

/-- RESULT of CLDESC: `zext_64(base[15:0] ++ TAG ++ 0b00 ++ SKIND ++ 0b0 ++ VARIANT)` (R159). -/
def descriptorResult (base : Nat) (h : Header) : DWord :=
  (BitVec.ofNat 16 base ++ h.h3 ++ 0#2 ++ (classify h).2.code ++ 0#1 ++
    (classify h).1.code).setWidth Config.resultWidth

/-- CLDESC (R159). A slot that matches no variant is not an error (R220). -/
def execCldesc (slot : Nat) (s : State) : Host.Outcome State Fault Refusal :=
  if s.rootOk = false then .next (raiseError .noRoot s)
  else .next (finish (descriptorResult (slotOffset slot) (headerAt s (slotOffset slot))) s)

end Sys2Proof.Machine
end

