-- ==== Sys2Proof/Machine/Extension.lean ====
section
/-! DEFINITION. The extension-block validator and classifier CLEXT (spec/43_extension.md). -/

namespace Sys2Proof.Machine

/-- The variants of an extension block (R174). -/
inductive ExtVariant where
  | blockMap
  | unknown
  deriving DecidableEq, Repr

/-- XVARIANT in RESULT[1:0] (R174, R175). -/
def ExtVariant.code : ExtVariant → BitVec 2
  | .blockMap => 1#2
  | .unknown => 2#2

/-- Classification by the type byte: 0xF0 is BlockMap, every other value Unknown (R174). -/
def classifyBlock (type : Byte) : ExtVariant := if type = 0xF0#8 then .blockMap else .unknown

/-- The first check of CLEXT that fails, in the order of R175. -/
def extensionFailure (xidx : Nat) (s : State) : Option ErrorCode :=
  if s.rootOk = false then some .noRoot
  else if xidx < 1 ∨ xidx > s.extCnt.toNat then some .domain
  else if blockBelowEnd s (blockOffset xidx) = false then some .range
  else if sum8 s (blockOffset xidx) ≠ 0#8 then some .extChecksum
  else none

/-- RESULT of CLEXT for the block at `base`: `zext_64(base[15:0] ++ 0x00 ++ BYTE1 ++ TYPE ++ 0b000000 ++
XVARIANT)`, TYPE and BYTE1 at block offsets 0 and 1 (R174, R175). -/
def extensionResult (base : Nat) (s : State) : DWord :=
  (BitVec.ofNat 16 base ++ 0#8 ++ rawByte s (base + 1) ++ rawByte s base ++ 0#6 ++
    (classifyBlock (rawByte s base)).code).setWidth Config.resultWidth

/-- CLEXT (R175). ROOT_OK and EXTCNT stay as they are on success and on every error. -/
def execClext (xidx : Nat) (s : State) : Host.Outcome State Fault Refusal :=
  match extensionFailure xidx s with
  | some c => .next (raiseError c s)
  | none => .next (finish (extensionResult (blockOffset xidx) s) s)

end Sys2Proof.Machine
end

