-- ==== Sys2Proof/Machine/Dispatch.lean ====
section
/-! DEFINITION. What the engine does with each decoded command: one arm per constructor of Instr. -/

namespace Sys2Proof.Machine

def exec (i : Instr) (s : State) : Host.Outcome State Fault Refusal :=
  match i with
  | .rdbits byteoff bitoff count => Sys2Proof.Machine.execRdbits byteoff bitoff count s
  | .rdbyte byteoff => Sys2Proof.Machine.execRdbyte byteoff s
  | .rdbytes byteoff nbytes => Sys2Proof.Machine.execRdbytes byteoff nbytes s
  | .cksum blk => Sys2Proof.Machine.execCksum blk s
  | .vroot => Sys2Proof.Machine.execVroot s
  | .cldesc slot => Sys2Proof.Machine.execCldesc slot s
  | .clext xidx => Sys2Proof.Machine.execClext xidx s

end Sys2Proof.Machine
end

