-- ==== Sys2Proof/Machine/Engine.lean ====
section
/-! DEFINITION. The engine's step: decode PENDING, then execute it (spec/30_encoding.md R90,
spec/60_exceptions.md R200). -/

namespace Sys2Proof.Machine

/-- Decode PENDING as the first action and run the command to completion; a word that matches no row
completes with E_ILLEGAL (R90). -/
def executePending (s : State) : Host.Outcome State Fault Refusal :=
  match decode s.pending with
  | .ok i => exec i s
  | .error _ => .next (raiseError .illegal s)

/-- The engine's turn: "While BUSY = 1 the engine has exactly one enabled step; while BUSY = 0 the
engine has none" (R27), so nothing happens then. -/
def engineTurn (s : State) : Host.Outcome State Fault Refusal :=
  if s.busy then executePending s else .next s

end Sys2Proof.Machine
end

