-- ==== Sys2Proof/Machine/HostPort.lean ====
section
/-! DEFINITION. The host bus window (spec/20_memory.md R52 to R58): which accesses are admitted, what
each read returns and each write does, the busy hazard (spec/60_exceptions.md R209), and the refused
access (R210). -/

namespace Sys2Proof.Machine

/-! ### The window and its map -/

/-- The size of the window: 64 KiB (R52). -/
abbrev windowSize : Nat := 65536

/-- The window offset that lies `n` bytes from BLOCK_BASE. From `windowSize` on there is none: an access there
is outside the window, and nothing of BFX changes (R52, R55, R61). -/
def offsetAt (n : Nat) : Option (BitVec 16) :=
  if n < windowSize then some (BitVec.ofNat 16 n) else none

/-- The bus address of a window offset (R52). -/
def busAddress (off : BitVec 16) : Nat := Config.blockBase + off.toNat

/-- The window offset a bus address selects; a bus address outside the 64 KiB window is no access to
BFX (R52). -/
def windowOffset (addr : Nat) : Option (BitVec 16) :=
  if Config.blockBase ≤ addr then offsetAt (addr - Config.blockBase) else none

/-- Offset of CMD (R23). -/
abbrev offCmd : BitVec 16 := 0x0000#16
/-- Offset of STATUS (R23). -/
abbrev offStatus : BitVec 16 := 0x0004#16
/-- Offset of RESULT_LO (R23). -/
abbrev offResultLo : BitVec 16 := 0x0008#16
/-- Offset of RESULT_HI (R23). -/
abbrev offResultHi : BitVec 16 := 0x000C#16
/-- Offset of BUF_LEN (R23). -/
abbrev offBufLen : BitVec 16 := 0x0010#16
/-- Offset of BUF_CAP (R23). -/
abbrev offBufCap : BitVec 16 := 0x0014#16
/-- Where the BUF port begins (R52). -/
abbrev portBase : Nat := 0x8000

/-- The access is in the BUF port half of the window, not among the registers (R53). -/
def inPort (off : BitVec 16) : Bool := decide (portBase ≤ off.toNat)

/-- The BUF address a port offset names: BUF[offset-0x8000] (R52). -/
def portAddress (off : BitVec 16) : Nat := off.toNat - portBase

/-! ### The accesses -/

/-- `wr32 off, v` at an offset of the window (R96). -/
def HostAccess.wr32 (off : BitVec 16) (v : Word) : HostAccess := .write 32 off v
/-- `rd32 off` at an offset of the window (R96). -/
def HostAccess.rd32 (off : BitVec 16) : HostAccess := .read 32 off
/-- The port offset of BUF address `a`: `0x8000 + a`, inside the window for `a` below 32768 (R52, R96). -/
def portOffset (a : Nat) : Option (BitVec 16) := offsetAt (portBase + a)
/-- `wr8 a, v` (R96): the access it makes to BFX, none where its bus address is outside the window. -/
def HostAccess.wr8 (a : Nat) (v : Byte) : Option HostAccess :=
  (portOffset a).map fun off => .write 8 off (v.setWidth 32)
/-- `rd8 a` (R96): the access it makes to BFX, none where its bus address is outside the window. -/
def HostAccess.rd8 (a : Nat) : Option HostAccess := (portOffset a).map fun off => .read 8 off

/-- The widths and alignments BFX admits: 32 bits at multiples of 4 among the registers, 8 bits at the
BUF port (R53). -/
def admits (bits : Nat) (off : BitVec 16) : Bool :=
  if inPort off then bits == 8 else bits == 32 && off.toNat % 4 == 0

/-- The access has a width and alignment that R53 admits. -/
def HostAccess.admitted : HostAccess → Bool
  | .read bits off => admits bits off
  | .write bits off _ => admits bits off

/-- The access is a 32-bit read of STATUS, the only one allowed while BUSY = 1 (R58, R209). -/
def HostAccess.isStatusRead : HostAccess → Bool
  | .read bits off => bits == 32 && off == offStatus
  | .write _ _ _ => false

/-- The access is a write of CMD. -/
def HostAccess.isCmdWrite : HostAccess → Bool
  | .read _ _ => false
  | .write bits off _ => bits == 32 && off == offCmd

/-! ### What an admitted access does -/

/-- What a 32-bit read returns (R58); CMD and the reserved offsets read as 0 (R24, R54). -/
def registerValue (off : BitVec 16) (s : State) : Word :=
  if off = offStatus then statusWord s
  else if off = offResultLo then s.result.extractLsb' 0 32
  else if off = offResultHi then s.result.extractLsb' 32 32
  else if off = offBufLen then s.bufLen.setWidth 32
  else if off = offBufCap then s.bufCap
  else 0#32

/-- What a 32-bit write does: CMD and BUF_LEN take it; the read-only registers and the reserved offsets
ignore it (R24, R54, R57). -/
def registerWrite (off : BitVec 16) (v : Word) (s : State) : State :=
  if off = offCmd then cmdWrite v s
  else if off = offBufLen then lenWrite v s
  else s

/-- What an 8-bit read returns: the stored byte, whether or not below BUF_LEN (R56); 0 at and past
BUF_CAP (R54). -/
def portValue (off : BitVec 16) (s : State) : Byte :=
  if portAddress off < s.bufCap.toNat then rawByte s (portAddress off) else 0#8

/-- What an 8-bit write does: it stores `v[7:0]` below BUF_CAP (R55) and is ignored from there on (R54). -/
def portWrite (off : BitVec 16) (v : Word) (s : State) : State :=
  if portAddress off < s.bufCap.toNat then bufWrite (portAddress off) (v.extractLsb' 0 8) s else s

/-- The value an admitted read returns. -/
def readValue (off : BitVec 16) (s : State) : ReadValue :=
  if inPort off then .byte (portValue off s) else .word (registerValue off s)

/-- The state after an admitted access made while the access is allowed. -/
def performAccess : HostAccess → State → State
  | .read _ off, s => returnRead (readValue off s) s
  | .write _ off v, s => if inPort off then portWrite off v s else registerWrite off v s

/-- The host's turn. A width or alignment R53 does not admit is refused, and is never a HOST_HAZARD
(R210); any other access but a STATUS read while BUSY = 1 is the fault HOST_HAZARD (R209). -/
def hostTurn (a : HostAccess) (s : State) : Host.Outcome State Fault Refusal :=
  if a.admitted = false then .refused .accessNotAdmitted
  else if s.busy && !a.isStatusRead then .fault .hostHazard
  else .next (performAccess a s)

end Sys2Proof.Machine
end

