-- ==== Sys2Proof/Machine/Step.lean ====
section
/-! DEFINITION. One step of a run: the next turn of the schedule. When the schedule is empty, a pending
command is still executed (the fairness of spec/70_reset_and_hazards.md R239), and an idle block stays
as it is. -/

namespace Sys2Proof.Machine

/-- The state once its next turn has been taken off the schedule. -/
def State.turnTaken (s : State) : State := { s with schedule := s.schedule.tail }

/-- One step. The order of the turns is plain data in State.schedule, free in every claim (R212). -/
def step (s : State) : Host.Outcome State Fault Refusal :=
  match s.schedule with
  | [] => engineTurn s
  | .engine :: _ => engineTurn s.turnTaken
  | .host a :: _ => hostTurn a s.turnTaken
  | .reset :: _ => .next (resetEvent s.turnTaken)

/-- BFX fetches nothing (R21): the engine executes the word in PENDING. So placing an instruction is
what the host's CMD write of that word does (R24), with the engine's turn next. -/
def State.withFetchWord (s : State) (nbits w : Nat) : State :=
  { cmdWrite (tableWord nbits w) s with schedule := .engine :: s.schedule }

end Sys2Proof.Machine
end

