-- ==== Sys2Proof/Machine/HostProgram.lean ====
section
/-! DEFINITION. Host programs: the pseudo-instructions of spec/30_encoding.md R97 as the turns they
stand for. They place turns in State.schedule and are no part of the block. -/

namespace Sys2Proof.Machine

/-- The pseudo-instructions of R97. `wait` and `exec` name how many STATUS reads see BUSY = 1 before the
engine's step: a number the spec leaves unbounded (R239, U12), so a claim holds for every one. After a bare
`cmd` the order of the engine's step and the host's next operations is free too (R212): `engineStep` lays the
step anywhere in a program, and without it only a later `wait` or `exec` does (DESIGN CHOICE, log entries 17
and 19). -/
inductive HostOp where
  /-- A bus operation, by the access it makes to BFX: none where its bus address is outside the window, and
  nothing of BFX changes then (R52, R61, log entry 18). The four of R96 are `HostOp.wr32` to `HostOp.rd8`. -/
  | access (a : Option HostAccess)
  /-- `cmd C`: write the word of C to CMD. -/
  | cmd (i : Instr)
  /-- `wait`: read STATUS until BUSY = 0. -/
  | wait (polls : Nat)
  /-- `exec C`: `cmd C` then `wait`. -/
  | exec (i : Instr) (polls : Nat)
  /-- `setlen n`. -/
  | setlen (n : Word)
  /-- `load a, b0 b1 ... bk`. -/
  | load (a : Nat) (bytes : List Byte)
  /-- `result`: read RESULT_LO, then RESULT_HI. -/
  | result
  /-- `status`: read STATUS. -/
  | status
  /-- No operation of the host: the engine's step is taken here (R212, log entry 19). -/
  | engineStep
  deriving DecidableEq, Repr

/-- `cmd C` (R97). -/
def cmdTurn (i : Instr) : Turn := .host (.wr32 offCmd (encode i))

/-- `status` (R97). -/
def statusTurn : Turn := .host (.rd32 offStatus)

/-- `wait` when the engine's step comes after `polls` STATUS reads that see BUSY = 1: the loop then ends
at the next read (R97). -/
def waitTurns (polls : Nat) : List Turn := List.replicate polls statusTurn ++ [.engine, statusTurn]

/-- The turns of a bus operation: its access, or none where it makes no access to BFX. -/
def accessTurns (a : Option HostAccess) : List Turn := a.toList.map Turn.host

/-- `load a, bytes` (R97): one byte write after another. -/
def loadTurns : Nat → List Byte → List Turn
  | _, [] => []
  | a, v :: vs => accessTurns (HostAccess.wr8 a v) ++ loadTurns (a + 1) vs

/-- `wr32 off, v` for any `off` (R96). -/
def HostOp.wr32 (off : Nat) (v : Word) : HostOp := .access ((offsetAt off).map fun o => .wr32 o v)
/-- `rd32 off` for any `off` (R96). -/
def HostOp.rd32 (off : Nat) : HostOp := .access ((offsetAt off).map .rd32)
/-- `wr8 a, v` for any `a` (R96). -/
def HostOp.wr8 (a : Nat) (v : Byte) : HostOp := .access (HostAccess.wr8 a v)
/-- `rd8 a` for any `a` (R96). -/
def HostOp.rd8 (a : Nat) : HostOp := .access (HostAccess.rd8 a)

/-- The assembler's refusal of a command whose operands do not fit (R95). The spec names no other refusal. -/
def HostOp.fits : HostOp → Bool
  | .cmd i => i.wf
  | .exec i _ => i.wf
  | _ => true

/-- The expansion of a pseudo-instruction (R97). A bare `cmd` lays no step of the engine (log entry 19). -/
def HostOp.turns : HostOp → List Turn
  | .access a => accessTurns a
  | .cmd i => [cmdTurn i]
  | .wait polls => waitTurns polls
  | .exec i polls => cmdTurn i :: waitTurns polls
  | .setlen n => [.host (.wr32 offBufLen n)]
  | .load a bytes => loadTurns a bytes
  | .result => [.host (.rd32 offResultLo), .host (.rd32 offResultHi)]
  | .status => [statusTurn]
  | .engineStep => [.engine]

/-- The turns of a host program in the one order that its `engineStep`s and polls choose, or none where the
assembler refuses an operation. A claim about the program must hold for every order (R212), so it quantifies
over them (log entry 19). -/
def hostProgram (ops : List HostOp) : Option (List Turn) :=
  if ops.all HostOp.fits then some (ops.flatMap HostOp.turns) else none

/-- RESULT as `result` puts it together from its two reads: "RESULT = second ++ first" (R97). -/
def joinResult (first second : Word) : DWord := second ++ first

end Sys2Proof.Machine
end

