-- ==== Sys2Proof/Safety.lean ====
section
/-! DEFINITION. The terms claims are stated in: the state invariants of spec/10_state.md R40, the host's
busy protocol (spec/70_reset_and_hazards.md R234), what a run's end and its observation are (R240), and
which errors a command can report and what they mean to the host (spec/60_exceptions.md R204, R205). -/

namespace Sys2Proof.Machine

/-! ### The invariants of the state -/

/-- The invariants of R40 and of the rules it collects, with the model's canonical form of memory. -/
structure State.Inv (s : State) : Prop where
  /-- "BUSY = 1 implies DONE = 0 and ERR = 0 and ECODE = 0" (R40). -/
  busy_clean : s.busy = true → s.done = false ∧ s.err = false ∧ s.ecode = 0#4
  /-- "ERR = 0 if and only if ECODE = 0" (R40). -/
  err_iff : s.err = false ↔ s.ecode = 0#4
  /-- "ERR = 1 with DONE = 0 never holds" (R29). -/
  err_done : s.err = true → s.done = true
  /-- "The values 10 to 15 are never written" (R30). -/
  ecode_le : s.ecode.toNat ≤ 9
  /-- "ROOT_OK = 0 implies EXTCNT = 0" (R40). -/
  no_root : s.rootOk = false → s.extCnt = 0#8
  /-- ROOT_OK = 1 implies that no check of R132 fails, the length check (BUF_LEN at least 128) among
  them, and EXTCNT = BUF[126] (R40). -/
  root : s.rootOk = true → rootFailure s = none ∧ s.extCnt = rawByte s 126
  /-- "BUF_LEN ≤ BUF_CAP" (R40). -/
  len_le : s.bufLen.toNat ≤ s.bufCap.toNat
  /-- BUF_CAP is a value R7 allows. -/
  cap_range : Config.bufCapMin ≤ s.bufCap.toNat ∧ s.bufCap.toNat ≤ Config.bufCapMax
  /-- Memory is in its canonical form. -/
  buf_wf : Memory.wf s.buf = true
  /-- BUF has BUF_CAP bytes (R36): nothing is listed at or past BUF_CAP. -/
  buf_within : Memory.within s.bufCap.toNat s.buf = true

/-! ### The host's protocol -/

/-- The schedule never makes an access R53 does not admit, and between a CMD write and the engine's step
it makes none but 32-bit reads of STATUS (R209, R234). The flag says whether a command is pending. -/
def obeysProtocol : Bool → List Turn → Bool
  | _, [] => true
  | _, .reset :: ts => obeysProtocol false ts
  | _, .engine :: ts => obeysProtocol false ts
  | true, .host a :: ts => a.admitted && a.isStatusRead && obeysProtocol true ts
  | false, .host a :: ts => a.admitted && obeysProtocol a.isCmdWrite ts

/-- The run of the machine from `s` for `k` steps. -/
def runFrom (k : Nat) (s : State) : Host.Outcome State Fault Refusal := Host.Core.run core k s

/-! ### Comparing runs -/

/-- Two outcomes agree: both go on, in states related by `R`, or both stop for the same reason. -/
def OutcomesAgree (R : State → State → Prop) :
    Host.Outcome State Fault Refusal → Host.Outcome State Fault Refusal → Prop
  | .next s, .next t => R s t
  | .fault r, .fault q => r = q
  | .refused r, .refused q => r = q
  | _, _ => False

/-! ### Words and headers in the spec's own terms -/

/-- OP is 0x0 or 0x8 to 0xF (R92). -/
def illegalOpcode (w : Word) : Prop := w.toNat / 2 ^ 28 = 0 ∨ 8 ≤ w.toNat / 2 ^ 28

/-- OP is defined and a bit of W[27:0] outside its format's fields is set (R81, R91). -/
def reservedBitSet (w : Word) : Prop :=
  (w.toNat / 2 ^ 28 = 1 ∧ w.toNat / 2 ^ 27 % 2 ≠ 0) ∨
  (w.toNat / 2 ^ 28 = 2 ∧ w.toNat / 2 ^ 16 % 2 ^ 12 ≠ 0) ∨
  (w.toNat / 2 ^ 28 = 3 ∧ w.toNat / 2 ^ 20 % 2 ^ 8 ≠ 0) ∨
  (w.toNat / 2 ^ 28 = 4 ∧ w.toNat / 2 ^ 8 % 2 ^ 20 ≠ 0) ∨
  (w.toNat / 2 ^ 28 = 5 ∧ w.toNat % 2 ^ 28 ≠ 0) ∨
  (w.toNat / 2 ^ 28 = 6 ∧ w.toNat / 2 ^ 2 % 2 ^ 26 ≠ 0) ∨
  (w.toNat / 2 ^ 28 = 7 ∧ w.toNat / 2 ^ 8 % 2 ^ 20 ≠ 0)

/-- The six variant predicates with the variants they give, in the order of R157. -/
def variantRules : List ((Header → Bool) × Variant) :=
  [(Header.isDetailedTiming, .detailedTiming),
   (Header.isStandardTiming, .additionalStandardTiming),
   (Header.isWhitePoint, .additionalWhitePoint),
   (Header.isRangeLimits, .monitorRangeLimits),
   (Header.isString, .stringDescriptor),
   (Header.isManufacturer, .manufacturerDescriptor)]

/-- The variant of the first rule of a list that holds for a header. -/
def firstVariant (rules : List ((Header → Bool) × Variant)) (h : Header) : Variant :=
  match rules.find? fun r => r.1 h with
  | some r => r.2
  | none => .noMatch

/-- The five header bytes from `base` are the ones given. -/
def headerIs (s : State) (base : Nat) (h0 h1 h2 h3 h4 : Byte) : Prop :=
  rawByte s base = h0 ∧ rawByte s (base + 1) = h1 ∧ rawByte s (base + 2) = h2 ∧
    rawByte s (base + 3) = h3 ∧ rawByte s (base + 4) = h4

/-- The magic stands at offsets 0 to 7 (R12). -/
def magicStands (s : State) : Prop :=
  rawByte s 0 = 0x00#8 ∧ rawByte s 1 = 0xFF#8 ∧ rawByte s 2 = 0xFF#8 ∧ rawByte s 3 = 0xFF#8 ∧
    rawByte s 4 = 0xFF#8 ∧ rawByte s 5 = 0xFF#8 ∧ rawByte s 6 = 0xFF#8 ∧ rawByte s 7 = 0x00#8

/-- The sum of the 128 bytes from `a`, as a number (R130). -/
def blockTotal (s : State) (a : Nat) : Nat :=
  ((List.range 128).map fun k => (rawByte s (a + k)).toNat).sum

/-- Version major is 1 and minor at least 1 (R136). -/
def versionStands (s : State) : Prop := rawByte s 18 = 1#8 ∧ rawByte s 19 ≠ 0#8

/-- The state of a command that failed with ECODE `c`: STATUS alone has changed (R203). -/
def failedWith (c : BitVec 4) (s : State) : State :=
  { s with err := true, ecode := c, busy := false, done := true }

/-- The state of a command that succeeded with RESULT `v` (R202). -/
def succeededWith (v : DWord) (s : State) : State :=
  { s with result := v, busy := false, done := true }

/-- `t` is `s` but for the fields of STATUS and for RESULT, which are all a command may write (R70). -/
def onlyStatusAndResultDiffer (s t : State) : Prop :=
  t = { s with
    busy := t.busy
    done := t.done
    err := t.err
    ecode := t.ecode
    rootOk := t.rootOk
    extCnt := t.extCnt
    result := t.result }

/-! ### The end of a run and what is observed -/

/-- The turn is a host operation. -/
def Turn.isHost : Turn → Bool
  | .reset => false
  | .engine => false
  | .host _ => true

/-- "A run of a BFX program ends when the host has no further operation, BUSY = 0 and no HOST_HAZARD
fault or refusal has been recorded" (R240): a state reached by `next`, with no host turn left and no command
pending. Turns of the engine or of the reset may be left. -/
def State.finished (s : State) : Bool := s.schedule.all (fun t => !t.isHost) && !s.busy

/-- R240's observed outcome: "the final STATUS, RESULT, BUF_LEN and BUF, together with the values the
host's reads returned". -/
structure Observation where
  status : Word
  result : DWord
  bufLen : BitVec 16
  buf : List Byte
  hostReads : List ReadValue
  deriving DecidableEq, Repr

/-- The BUF_CAP stored bytes of BUF in address order (R36). A byte not written since reset is the free
value, of which nothing is said (R240). -/
def State.bufBytes (s : State) : List Byte := (List.range s.bufCap.toNat).map (rawByte s)

/-- What R240 observes of a state. -/
def State.observe (s : State) : Observation :=
  ⟨statusWord s, s.result, s.bufLen, s.bufBytes, s.hostReads⟩

/-! ### Errors as the host reads them -/

/-- The codes a command can report when it fails (R205). -/
def reportable : Instr → List ErrorCode
  | .rdbits _ _ _ => [.domain]
  | .rdbyte _ => []
  | .rdbytes _ _ => [.domain]
  | .cksum _ => [.range]
  | .vroot => [.rootShort, .rootMagic, .rootChecksum, .rootVersion]
  | .cldesc _ => [.noRoot]
  | .clext _ => [.noRoot, .domain, .range, .extChecksum]

/-- The kinds of EDP's error taxonomy that BFX can report (R204). -/
inductive EdpKind where
  | malformedRoot
  | invalidExtension
  | preconditionViolation
  deriving DecidableEq, Repr

/-- The EDP kind of a code a command reports; codes of the command interface have none (R204). -/
def edpKind : Instr → ErrorCode → Option EdpKind
  | .vroot, .rootShort => some .malformedRoot
  | .vroot, .rootMagic => some .malformedRoot
  | .vroot, .rootChecksum => some .malformedRoot
  | .vroot, .rootVersion => some .malformedRoot
  | .clext _, .extChecksum => some .invalidExtension
  | .clext _, .range => some .invalidExtension
  | .rdbits _ _ _, .domain => some .preconditionViolation
  | _, _ => none

end Sys2Proof.Machine
end

