-- ==== Sys2Proof/Certificates/Slice0/Obligations.lean ====
section
/-! DEFINITION. The statements about BFX. Each cites the rules of spec/ it rests on in OBLIGATIONS.json;
a docstring names the log entry where a clause is the model's own choice. -/

open Sys2Proof Sys2Proof.Machine

/-! ### Encoding -/

/-- Decoding the assembler's word of a command whose operands fit gives the command back (R90, R95). -/
def Obligations.DecodeOfEncodeIsTheCommand : Prop :=
  ∀ i : Instr, i.wf = true → decode (encode i) = .ok i

/-- A word that decodes is the assembler's word of a command whose operands fit: no bit of a word is
dropped (R91). -/
def Obligations.EncodeOfDecodeIsTheWord : Prop :=
  ∀ (w : Word) (i : Instr), decode w = .ok i → i.wf = true ∧ encode i = w

/-- At most one row of the opcode map selects any word (R90). -/
def Obligations.OpcodeRowsSelectDisjointWords : Prop :=
  opcodeRows.Pairwise fun r q => ∀ w : Word, ¬(r.selects w = true ∧ q.selects w = true)

/-- The decoder rejects a word exactly when its OP is undefined or one of its reserved bits is set (R91,
R92); the two reasons are the model's names for the one error E_ILLEGAL. -/
def Obligations.DecoderRejectsExactlyTheIllegalWords : Prop :=
  ∀ w : Word, (decode w = .error .illegalOpcode ↔ illegalOpcode w) ∧
    (decode w = .error .reservedBitSet ↔ reservedBitSet w)

/-- Words of R98 and of spec/95_test_vectors.md decode to the commands they stand for. -/
def Obligations.SpecExampleWordsDecode : Prop :=
  decode 0x10170014#32 = .ok (.rdbits 20 7 1) ∧ decode 0x2000007E#32 = .ok (.rdbyte 126) ∧
  decode 0x3005005A#32 = .ok (.rdbytes 90 5) ∧ decode 0x40000001#32 = .ok (.cksum 1) ∧
  decode 0x50000000#32 = .ok .vroot ∧ decode 0x60000003#32 = .ok (.cldesc 3) ∧
  decode 0x70000001#32 = .ok (.clext 1) ∧ decode 0x14000000#32 = .ok (.rdbits 0 0 64)

/-! ### The step -/

/-- A step whose engine moves next, with a command pending, is the execution of the decoded command in
the state whose turn has been taken (R27, R90; the schedule is log entry 4). -/
def Obligations.StepRunsTheDecodedCommand : Prop :=
  ∀ (s : State) (i : Instr), s.busy = true → decode s.pending = .ok i →
    (s.schedule = [] → step s = exec i s) ∧
    (∀ rest, s.schedule = .engine :: rest → step s = exec i { s with schedule := rest })

/-- A host turn is the host's access and the turn is spent (R20); with no command pending the engine has no
step, and its turn changes nothing (R27). The schedule is log entry 4. -/
def Obligations.StepTakesTheScheduledTurn : Prop :=
  ∀ s : State,
    (∀ a rest, s.schedule = .host a :: rest → step s = hostTurn a { s with schedule := rest }) ∧
    (∀ rest, s.busy = false → s.schedule = .engine :: rest →
      step s = .next { s with schedule := rest }) ∧
    (s.busy = false → s.schedule = [] → step s = .next s)

/-- Placing a table word and stepping runs the instruction the decoder reads from it, as the CMD write
of that word would have it (R24, log entry 6). -/
def Obligations.PlacedWordRunsNext : Prop :=
  ∀ (s : State) (w : Nat) (i : Instr), w < 2 ^ 32 → decodeTableWord 32 w = some i →
    step (s.withFetchWord 32 w) = exec i (cmdWrite (BitVec.ofNat 32 w) s)

/-- "An illegal word changes only STATUS (BUSY, DONE, ERR, ECODE)": it completes with E_ILLEGAL (R93). -/
def Obligations.IllegalWordChangesOnlyStatus : Prop :=
  ∀ s : State, s.busy = true → illegalOpcode s.pending ∨ reservedBitSet s.pending →
    engineTurn s = .next (failedWith 1#4 s)

/-! ### The bit-field extractor -/

/-- The engine reads the stored byte below BUF_LEN and zero from there on, at every offset (R10, R51). -/
def Obligations.EngineReadsZeroPastTheBufferEnd : Prop :=
  ∀ (s : State) (a : Nat),
    (a < s.bufLen.toNat → paddedByte s a = rawByte s a) ∧
    (s.bufLen.toNat ≤ a → paddedByte s a = 0#8)

/-- RDBITS within its domain completes, and bit `i` of RESULT is bit `b + i` of the 8-byte window at `o`
for `i` below `n`, and 0 from there on (R110, R111). -/
def Obligations.RdbitsExtractsTheField : Prop :=
  ∀ (s : State) (o b n : Nat), b ≤ 7 → 1 ≤ n → n ≤ 64 →
    ∃ v : DWord, exec (.rdbits o b n) s = .next (succeededWith v s) ∧
      ∀ i, i < 64 → v.getLsbD i =
        (decide (i < n ∧ b + i < 64) && (paddedByte s (o + (b + i) / 8)).getLsbD ((b + i) % 8))

/-- RDBYTE completes with the zero-extended byte at every offset (R112). -/
def Obligations.RdbyteReadsOneByte : Prop :=
  ∀ (s : State) (o : Nat),
    exec (.rdbyte o) s = .next (succeededWith ((paddedByte s o).setWidth 64) s)

/-- RDBYTES of up to 8 bytes completes with byte `k` of RESULT the byte at offset `o + k`, and the bits
above them 0; 0 bytes give 0 (R113). -/
def Obligations.RdbytesPacksTheBytes : Prop :=
  ∀ (s : State) (o n : Nat), n ≤ 8 →
    ∃ v : DWord, exec (.rdbytes o n) s = .next (succeededWith v s) ∧
      (∀ k, k < n → v.extractLsb' (8 * k) 8 = paddedByte s (o + k)) ∧
      (∀ i, 8 * n ≤ i → v.getLsbD i = false)

/-- The specialisation laws of the extractor (R114, derived by the spec from R110 to R113). -/
def Obligations.ExtractorSpecialisationLaws : Prop :=
  (∀ (s : State) (o : Nat), exec (.rdbits o 0 8) s = exec (.rdbyte o) s) ∧
  (∀ (s : State) (o n : Nat), 1 ≤ n → n ≤ 8 → exec (.rdbits o 0 (8 * n)) s = exec (.rdbytes o n) s) ∧
  (∀ (s : State) (o b n : Nat), b ≤ 7 → 1 ≤ n → n < 64 →
    readBits s o b n = readBits s o b 64 &&& BitVec.ofNat 64 (2 ^ n - 1)) ∧
  (∀ (s : State) (o b n : Nat), 1 ≤ n → b + n ≤ 8 →
    readBits s o b n = ((paddedByte s o >>> b) &&& BitVec.ofNat 8 (2 ^ n - 1)).setWidth 64)

/-- The window is 8 bytes: a field that would reach past bit 63 has zeros there, and no byte after the
eighth has any effect (R115, derived by the spec from R110). -/
def Obligations.WindowHasEightBytes : Prop :=
  (∀ (s : State) (o b n i : Nat), b ≤ 7 → n ≤ 64 → 64 ≤ b + i →
    (readBits s o b n).getLsbD i = false) ∧
  (∀ (s t : State) (o b n : Nat), (∀ k, k < 8 → paddedByte t (o + k) = paddedByte s (o + k)) →
    readBits t o b n = readBits s o b n)

/-- The command a caller normalises to reads the `n` bits from bit `p` of the byte at `o` on, for any
`p`, as long as they fit the window (R238). -/
def Obligations.NormalisedCommandReadsTheField : Prop :=
  ∀ (s : State) (o p n : Nat), 1 ≤ n → p % 8 + n ≤ 64 →
    ∃ v : DWord, exec (Instr.normalised o p n) s = .next (succeededWith v s) ∧
      (∀ i, i < n → v.getLsbD i = (paddedByte s (o + (p + i) / 8)).getLsbD ((p + i) % 8)) ∧
      (∀ i, n ≤ i → v.getLsbD i = false)

/-! ### The checksum and the root record -/

/-- CKSUM of a block that lies below BUF_LEN completes with the sum of its bytes modulo 256 (R130, R131). -/
def Obligations.CksumReportsTheByteSum : Prop :=
  ∀ (s : State) (blk : Nat), 128 * blk + 128 ≤ s.bufLen.toNat →
    exec (.cksum blk) s =
      .next (succeededWith (BitVec.ofNat 64 (blockTotal s (128 * blk) % 256)) s)

/-- The commands with operands of their own range complete with their error outside it: RDBITS with BITOFF 8
or more, or COUNT outside 1 to 64, and RDBYTES of 9 bytes or more with E_DOMAIN (R111, R113, R238), and
CKSUM of a block that does not lie below BUF_LEN with E_RANGE (R131). -/
def Obligations.OperandsOutOfRangeFail : Prop :=
  ∀ s : State,
    (∀ o b n, 8 ≤ b ∨ n = 0 ∨ 65 ≤ n → exec (.rdbits o b n) s = .next (failedWith 2#4 s)) ∧
    (∀ o n, 9 ≤ n → exec (.rdbytes o n) s = .next (failedWith 2#4 s)) ∧
    (∀ blk, s.bufLen.toNat < 128 * blk + 128 → exec (.cksum blk) s = .next (failedWith 8#4 s))

/-- The reducer's sum is the sum modulo 256 in whatever order the block's bytes are added (R130). -/
def Obligations.SumOrderDoesNotMatter : Prop :=
  ∀ (s : State) (a : Nat) (order : List Nat), order.Perm (List.range 128) →
    (sum8 s a).toNat = (order.map fun k => (rawByte s (a + k)).toNat).sum % 256

/-- VROOT over a record that passes every check latches it and reports version and extension count
(R132, R137). -/
def Obligations.VrootAcceptsAValidRoot : Prop :=
  ∀ s : State, 128 ≤ s.bufLen.toNat → magicStands s → blockTotal s 0 % 256 = 0 → versionStands s →
    exec .vroot s = .next (succeededWith
      (BitVec.ofNat 64
        ((rawByte s 126).toNat * 65536 + (rawByte s 19).toNat * 256 + (rawByte s 18).toNat))
      { s with rootOk := true, extCnt := rawByte s 126 })

/-- VROOT reports the first check that fails, in the order length, magic, checksum, version, withdraws
any earlier record and leaves RESULT as it was (R133 to R136, R138). -/
def Obligations.VrootReportsTheFirstFailingCheck : Prop :=
  ∀ s : State,
    (s.bufLen.toNat < 128 →
      exec .vroot s = .next (failedWith 3#4 { s with rootOk := false, extCnt := 0#8 })) ∧
    (128 ≤ s.bufLen.toNat → ¬magicStands s →
      exec .vroot s = .next (failedWith 4#4 { s with rootOk := false, extCnt := 0#8 })) ∧
    (128 ≤ s.bufLen.toNat → magicStands s → blockTotal s 0 % 256 ≠ 0 →
      exec .vroot s = .next (failedWith 5#4 { s with rootOk := false, extCnt := 0#8 })) ∧
    (128 ≤ s.bufLen.toNat → magicStands s → blockTotal s 0 % 256 = 0 → ¬versionStands s →
      exec .vroot s = .next (failedWith 6#4 { s with rootOk := false, extCnt := 0#8 }))

/-- A command issued twice over one buffer gives the same state the second time: RESULT, STATUS and all
(R62, R140). -/
def Obligations.EveryCommandIsIdempotent : Prop :=
  ∀ (i : Instr) (w : Word) (s t : State), exec i (cmdWrite w s) = .next t →
    exec i (cmdWrite w t) = .next t

/-! ### The descriptor classifier -/

/-- CLDESC without a validated root completes with E_NOROOT (R159). -/
def Obligations.CldescNeedsARoot : Prop :=
  ∀ (s : State) (slot : Nat), s.rootOk = false →
    exec (.cldesc slot) s = .next (failedWith 7#4 s)

/-- CLDESC over a validated root completes for every slot. RESULT holds the variant by the structural
predicates R151 to R156, the string kind, the tag byte and the slot's offset, and zeros elsewhere. Two
clauses follow inferences the spec marks as its own and are the model's choice, log entry 16: the full
headers of the string kinds FF and FE (R155, D15) and DetailedTiming by the 16-bit pixel clock (R151, D31). -/
def Obligations.CldescClassifiesTheSlot : Prop :=
  ∀ (s : State) (slot : Nat), slot < 4 → s.rootOk = true →
    ∃ variant skind : Nat,
      exec (.cldesc slot) s = .next (succeededWith
        (BitVec.ofNat 64 ((54 + 18 * slot) * 65536 + (rawByte s (54 + 18 * slot + 3)).toNat * 256 +
          skind * 16 + variant)) s) ∧
      variant ≤ 6 ∧ skind ≤ 3 ∧
      (variant = 1 ↔ rawByte s (54 + 18 * slot) ≠ 0#8 ∨ rawByte s (54 + 18 * slot + 1) ≠ 0#8) ∧
      (variant = 2 ↔ headerIs s (54 + 18 * slot) 0#8 0#8 0#8 0xFA#8 0#8) ∧
      (variant = 3 ↔ headerIs s (54 + 18 * slot) 0#8 0#8 0#8 0xFB#8 0#8) ∧
      (variant = 4 ↔ headerIs s (54 + 18 * slot) 0#8 0#8 0#8 0xFD#8 0#8) ∧
      (variant = 5 ↔ skind ≠ 0) ∧
      (skind = 1 ↔ headerIs s (54 + 18 * slot) 0#8 0#8 0#8 0xFC#8 0#8) ∧
      (skind = 2 ↔ headerIs s (54 + 18 * slot) 0#8 0#8 0#8 0xFF#8 0#8) ∧
      (skind = 3 ↔ headerIs s (54 + 18 * slot) 0#8 0#8 0#8 0xFE#8 0#8) ∧
      (variant = 6 ↔ ∃ code : Byte, code.toNat ≤ 15 ∧
        headerIs s (54 + 18 * slot) 0#8 0#8 0#8 code 0#8)

/-- At most one variant predicate holds for any header, so every order of the six gives the variant the
priority multiplexer gives (R157, and R158 which the spec derives; the predicates of R151 and R155 are log
entry 16). -/
def Obligations.ValidatorOrderDoesNotMatter : Prop :=
  ∀ h : Header,
    variantRules.Pairwise (fun r q => ¬(r.1 h = true ∧ q.1 h = true)) ∧
    ∀ rules, rules.Perm variantRules → firstVariant rules h = (classify h).1

/-! ### The extension-block classifier -/

/-- CLEXT reports the first check that fails, in the order root, index, range, checksum, and leaves the
record and RESULT as they were (R171 to R173, R175, R176). -/
def Obligations.ClextReportsTheFirstFailingCheck : Prop :=
  ∀ (s : State) (x : Nat),
    (s.rootOk = false → exec (.clext x) s = .next (failedWith 7#4 s)) ∧
    (s.rootOk = true → x = 0 ∨ s.extCnt.toNat < x → exec (.clext x) s = .next (failedWith 2#4 s)) ∧
    (s.rootOk = true → 1 ≤ x → x ≤ s.extCnt.toNat → s.bufLen.toNat < 128 * x + 128 →
      exec (.clext x) s = .next (failedWith 8#4 s)) ∧
    (s.rootOk = true → 1 ≤ x → x ≤ s.extCnt.toNat → 128 * x + 128 ≤ s.bufLen.toNat →
      blockTotal s (128 * x) % 256 ≠ 0 → exec (.clext x) s = .next (failedWith 9#4 s))

/-- CLEXT of a valid block completes with BASE, BYTE1, TYPE and XVARIANT in their places: BlockMap for
type 0xF0, Unknown for every other type (R174, R175). That TYPE and BYTE1 stand at block offsets 0 and 1 is
an inference the spec marks as its own (R174, D16, G2), the model's choice of log entry 16. -/
def Obligations.ClextClassifiesTheBlock : Prop :=
  ∀ (s : State) (x : Nat), s.rootOk = true → 1 ≤ x → x ≤ s.extCnt.toNat →
    128 * x + 128 ≤ s.bufLen.toNat → blockTotal s (128 * x) % 256 = 0 →
    exec (.clext x) s = .next (succeededWith
      (BitVec.ofNat 64 (128 * x * 2 ^ 32 + (rawByte s (128 * x + 1)).toNat * 65536 +
        (rawByte s (128 * x)).toNat * 256 + if rawByte s (128 * x) = 0xF0#8 then 1 else 2)) s)

/-! ### What commands leave alone -/

/-- Every command completes in its one step, and so does the engine's step over any pending word, legal or
not; it writes only STATUS and RESULT: BUF at every address, BUF_LEN and BUF_CAP are as before, and so are
PENDING and the turns and reads outside the block (R70, R200). -/
def Obligations.CommandsWriteOnlyStatusAndResult : Prop :=
  (∀ (i : Instr) (s : State), ∃ t : State, exec i s = .next t ∧
    t.busy = false ∧ t.done = true ∧ onlyStatusAndResultDiffer s t ∧ ∀ a, rawByte t a = rawByte s a) ∧
  ∀ s : State, s.busy = true → ∃ t : State, engineTurn s = .next t ∧
    t.busy = false ∧ t.done = true ∧ onlyStatusAndResultDiffer s t ∧ ∀ a, rawByte t a = rawByte s a

/-- No command but VROOT changes ROOT_OK or EXTCNT (R31, R116, R131, R159, R175). -/
def Obligations.OnlyVrootWritesTheRecord : Prop :=
  ∀ (i : Instr) (s t : State), i ≠ .vroot → exec i s = .next t →
    t.rootOk = s.rootOk ∧ t.extCnt = s.extCnt

/-- "Errors are precise": an engine step that fails, at decoding or later, changes only BUSY, DONE, ERR and
ECODE, and for VROOT also ROOT_OK and EXTCNT, which it clears (R203, R207). -/
def Obligations.FailedCommandsArePrecise : Prop :=
  ∀ s t : State, s.busy = true → s.err = false → engineTurn s = .next t → t.err = true →
    (decode s.pending ≠ .ok .vroot → t = failedWith t.ecode s) ∧
    (decode s.pending = .ok .vroot → t = failedWith t.ecode { s with rootOk := false, extCnt := 0#8 })

/-- A command begun by a CMD write ends with no error and ECODE 0, or with one of its own codes (R205,
which the spec derives). -/
def Obligations.CommandsReportTheirOwnCodes : Prop :=
  ∀ (i : Instr) (w : Word) (s : State), ∃ t : State, exec i (cmdWrite w s) = .next t ∧
    ((t.err = false ∧ t.ecode = 0#4) ∨
     (t.err = true ∧ ∃ c, c ∈ reportable i ∧ t.ecode = c.number))

/-! ### The host window -/

/-- The CMD write, while no command is pending, latches the word and does exactly what R24 lists. -/
def Obligations.CmdWriteBeginsACommand : Prop :=
  ∀ (s : State) (w : Word), s.busy = false →
    hostTurn (.write 32 0x0000#16 w) s = .next
      { s with pending := w, busy := true, done := false, err := false, ecode := 0#4 }

/-- The host buffer write stores the low byte of the data at one address, leaves every other byte as it
was, withdraws the record whatever the byte was, and the engine still reads zero there past BUF_LEN
(R55). -/
def Obligations.BufferWriteStoresOneByte : Prop :=
  ∀ (s : State) (a : Nat) (v : Word), s.busy = false → a < s.bufCap.toNat → s.bufCap.toNat ≤ 32768 →
    ∃ t : State, hostTurn (.write 8 (BitVec.ofNat 16 (0x8000 + a)) v) s = .next t ∧
      rawByte t a = v.extractLsb' 0 8 ∧ (∀ b, b ≠ a → rawByte t b = rawByte s b) ∧
      t = { s with buf := t.buf, rootOk := false, extCnt := 0#8 } ∧
      (s.bufLen.toNat ≤ a → paddedByte t a = 0#8)

/-- The BUF_LEN write stores the smaller of the word and BUF_CAP and withdraws the record, and a read of
BUF_LEN returns it zero-extended (R57). -/
def Obligations.BufLenWriteClamps : Prop :=
  ∀ (s : State) (v : Word), s.busy = false → s.bufCap.toNat ≤ 32768 →
    (∃ t : State, hostTurn (.write 32 0x0010#16 v) s = .next t ∧
      t.bufLen.toNat = min v.toNat s.bufCap.toNat ∧
      t = { s with bufLen := t.bufLen, rootOk := false, extCnt := 0#8 }) ∧
    hostTurn (.read 32 0x0010#16) s =
      .next { s with hostReads := s.hostReads ++ [.word (s.bufLen.setWidth 32)] }

/-- A read of STATUS returns its fields in their places with the reserved bits 0, in every state, and
changes nothing (R26, R58). -/
def Obligations.StatusReadReturnsTheFields : Prop :=
  ∀ s : State, ∃ v : Word,
    hostTurn (.read 32 0x0004#16) s = .next { s with hostReads := s.hostReads ++ [.word v] } ∧
    v.toNat = s.busy.toNat + 2 * s.done.toNat + 4 * s.err.toNat + 16 * s.ecode.toNat +
      256 * s.rootOk.toNat + 65536 * s.extCnt.toNat

/-- With no command pending, RESULT_LO and RESULT_HI return the halves of RESULT, BUF_CAP the capacity
and CMD 0, and nothing else changes (R24, R33, R35, R58). -/
def Obligations.RegisterReadsReturnTheRegisters : Prop :=
  ∀ s : State, s.busy = false →
    (∃ lo hi : Word,
      hostTurn (.read 32 0x0008#16) s = .next { s with hostReads := s.hostReads ++ [.word lo] } ∧
      hostTurn (.read 32 0x000C#16) s = .next { s with hostReads := s.hostReads ++ [.word hi] } ∧
      joinResult lo hi = s.result) ∧
    hostTurn (.read 32 0x0014#16) s =
      .next { s with hostReads := s.hostReads ++ [.word s.bufCap] } ∧
    hostTurn (.read 32 0x0000#16) s = .next { s with hostReads := s.hostReads ++ [.word 0#32] }

/-- With no command pending, reserved offsets read as 0 and ignore writes, the read-only registers
ignore writes, and so does the BUF port at and past BUF_CAP, which reads as 0 (R54). -/
def Obligations.ReservedOffsetsReadZeroAndIgnoreWrites : Prop :=
  ∀ (s : State) (off : BitVec 16) (v : Word), s.busy = false →
    (0x0018 ≤ off.toNat → off.toNat < 0x8000 → off.toNat % 4 = 0 →
      hostTurn (.read 32 off) s = .next { s with hostReads := s.hostReads ++ [.word 0#32] } ∧
      hostTurn (.write 32 off v) s = .next s) ∧
    (off = 0x0004#16 ∨ off = 0x0008#16 ∨ off = 0x000C#16 ∨ off = 0x0014#16 →
      hostTurn (.write 32 off v) s = .next s) ∧
    (0x8000 + s.bufCap.toNat ≤ off.toNat →
      hostTurn (.read 8 off) s = .next { s with hostReads := s.hostReads ++ [.byte 0#8] } ∧
      hostTurn (.write 8 off v) s = .next s)

/-- The BUF port returns the stored byte whether or not it lies below BUF_LEN, the free value where the
host has written nothing since reset, and changes nothing (R56, log entry 1). -/
def Obligations.PortReadReturnsTheStoredByte : Prop :=
  ∀ (s : State) (a : Nat), s.busy = false → a < s.bufCap.toNat → s.bufCap.toNat ≤ 32768 →
    hostTurn (.read 8 (BitVec.ofNat 16 (0x8000 + a))) s =
      .next { s with hostReads := s.hostReads ++ [.byte (rawByte s a)] } ∧
    (Memory.lookup s.buf a = none → rawByte s a = Config.unwrittenByte s.epoch a)

/-- HOST_HAZARD is exactly an admitted access other than a 32-bit read of STATUS while a command is
pending (R209; that an access of an inadmissible width is refused first is log entry 7). -/
def Obligations.HazardIsExactlyAnAccessWhileBusy : Prop :=
  ∀ (a : HostAccess) (s : State),
    hostTurn a s = .fault .hostHazard ↔
      s.busy = true ∧ a.admitted = true ∧ a ≠ .read 32 0x0004#16

/-- Refused is exactly an access that is neither 32 bits at a multiple of 4 among the registers nor 8
bits at the BUF port (R53, R210), with a command pending too (log entry 7). -/
def Obligations.RefusalIsExactlyAnInadmissibleWidth : Prop :=
  ∀ (s : State) (bits : Nat) (off : BitVec 16) (v : Word),
    (hostTurn (.read bits off) s = .refused .accessNotAdmitted ↔
      ¬((off.toNat < 0x8000 ∧ bits = 32 ∧ off.toNat % 4 = 0) ∨ (0x8000 ≤ off.toNat ∧ bits = 8))) ∧
    (hostTurn (.write bits off v) s = .refused .accessNotAdmitted ↔
      ¬((off.toNat < 0x8000 ∧ bits = 32 ∧ off.toNat % 4 = 0) ∨ (0x8000 ≤ off.toNat ∧ bits = 8)))

/-- "Of the host accesses, only these change state: the CMD write, the BUF port write and the BUF_LEN
write" (R61): after any other, only the record of returned values differs. -/
def Obligations.OnlyThreeAccessesChangeState : Prop :=
  ∀ (a : HostAccess) (s t : State), hostTurn a s = .next t →
    (∀ w, a ≠ .write 32 0x0000#16 w) → (∀ w, a ≠ .write 32 0x0010#16 w) →
    (∀ off w, 0x8000 ≤ off.toNat → a ≠ .write 8 off w) →
    t = { s with hostReads := t.hostReads }

/-- The window is the 64 KiB from BLOCK_BASE, wherever the platform puts it: every offset has one bus
address, and a bus address outside the window selects no offset (R52, log entry 3). -/
def Obligations.WindowAddressesAreOffsetsFromTheBase : Prop :=
  (∀ off : BitVec 16, windowOffset (busAddress off) = some off) ∧
  (∀ addr off, windowOffset addr = some off → busAddress off = addr)

/-- After a write of BUF or of BUF_LEN, CLDESC and CLEXT give E_NOROOT (R235). -/
def Obligations.BufferChangeWithdrawsTheRecord : Prop :=
  ∀ (s : State) (a slot x : Nat) (b : Byte) (v w : Word) (t : State),
    t = bufWrite a b s ∨ t = lenWrite v s →
    exec (.cldesc slot) (cmdWrite w t) = .next (failedWith 7#4 (cmdWrite w t)) ∧
    exec (.clext x) (cmdWrite w t) = .next (failedWith 7#4 (cmdWrite w t))

/-! ### Reset -/

/-- The registers right after reset are as the table of R39 lists them; the capacity is the default of
R7, and BUF lists no written byte. -/
def Obligations.ResetLeavesTheListedValues : Prop :=
  statusWord State.reset = 0#32 ∧ State.reset.result = 0#64 ∧ State.reset.bufLen = 0#16 ∧
    State.reset.bufCap = 32768#32 ∧ ∀ a, Memory.lookup State.reset.buf a = none

/-- A reset at any point, with a command pending or not, discards it and leaves the state of R39 over the
same capacity; every byte of BUF is then a fresh draw and the engine reads zero at every offset (R230 to
R232, log entry 1). -/
def Obligations.ResetAtAnyPointLeavesTheResetState : Prop :=
  ∀ (s : State) (rest : List Turn), s.schedule = .reset :: rest →
    ∃ t : State, step s = .next t ∧ statusWord t = 0#32 ∧ t.result = 0#64 ∧ t.bufLen = 0#16 ∧
      t.bufCap = s.bufCap ∧ t.schedule = rest ∧ t.hostReads = s.hostReads ∧
      (∀ a, rawByte t a = Config.unwrittenByte (s.epoch + 1) a) ∧ ∀ a, paddedByte t a = 0#8

/-! ### Invariants and whole-machine rules -/

/-- The invariants hold at reset (R39, R40; the memory's canonical form is the model's own clause). -/
def Obligations.ResetMeetsTheInvariants : Prop := State.reset.Inv

/-- Every step keeps the invariants of R40 and the memory's canonical form, whichever turn is scheduled. -/
def Obligations.StepKeepsTheInvariants : Prop :=
  ∀ s t : State, s.Inv → step s = .next t → t.Inv

/-- ROOT_OK rises only by a VROOT over a buffer that passes every check, and falls only by a reset, a
write of BUF or BUF_LEN, or a VROOT that fails a check (R31). -/
def Obligations.RootOkChangesOnlyAtItsEvents : Prop :=
  ∀ s t : State, step s = .next t →
    (s.rootOk = false → t.rootOk = true →
      s.busy = true ∧ decode s.pending = .ok .vroot ∧ 128 ≤ s.bufLen.toNat ∧ magicStands s ∧
        blockTotal s 0 % 256 = 0 ∧ versionStands s) ∧
    (s.rootOk = true → t.rootOk = false →
      s.schedule.head? = some .reset ∨
      (∃ v, s.schedule.head? = some (.host (.write 32 0x0010#16 v))) ∨
      (∃ off v, 0x8000 ≤ off.toNat ∧ s.schedule.head? = some (.host (.write 8 off v))) ∨
      (s.busy = true ∧ decode s.pending = .ok .vroot ∧
        ¬(128 ≤ s.bufLen.toNat ∧ magicStands s ∧ blockTotal s 0 % 256 = 0 ∧ versionStands s)))

/-- BUSY rises only by a CMD write, and falls only by the engine's step or a reset; DONE falls only by a
CMD write or a reset, and rises only by the engine's step (R27, R28). -/
def Obligations.BusyAndDoneChangeOnlyAtTheirEvents : Prop :=
  ∀ s t : State, step s = .next t →
    (s.busy = false → t.busy = true →
      ∃ w, s.schedule.head? = some (.host (.write 32 0x0000#16 w)) ∧ t.pending = w) ∧
    (s.busy = true → t.busy = false →
      s.schedule = [] ∨ s.schedule.head? = some .engine ∨ s.schedule.head? = some .reset) ∧
    (s.done = true → t.done = false →
      s.schedule.head? = some .reset ∨
        ∃ w, s.schedule.head? = some (.host (.write 32 0x0000#16 w))) ∧
    (s.done = false → t.done = true →
      s.busy = true ∧ (s.schedule = [] ∨ s.schedule.head? = some .engine))

/-- A byte of BUF changes only by a reset or by the host's write of that byte, BUF_LEN only by a reset or
the BUF_LEN write, and BUF_CAP never (R34 to R36, R70). -/
def Obligations.OnlyTheHostChangesTheBuffer : Prop :=
  ∀ s t : State, step s = .next t →
    t.bufCap = s.bufCap ∧
    (t.bufLen ≠ s.bufLen → s.schedule.head? = some .reset ∨
      ∃ v, s.schedule.head? = some (.host (.write 32 0x0010#16 v))) ∧
    ∀ a, rawByte t a ≠ rawByte s a → s.schedule.head? = some .reset ∨
      ∃ off v, off.toNat = 0x8000 + a ∧ s.schedule.head? = some (.host (.write 8 off v))

/-- RESULT changes only at a reset or at an engine step that does not fail (R33). -/
def Obligations.OnlyCommandsWriteResult : Prop :=
  ∀ s t : State, step s = .next t → t.result ≠ s.result →
    s.schedule.head? = some .reset ∨
      (s.busy = true ∧ (s.schedule = [] ∨ s.schedule.head? = some .engine) ∧
        (s.err = false → t.err = false))

/-- What the engine answers does not depend on any byte at or past BUF_LEN, stored or never written (U5,
R51, R130, R150). -/
def Obligations.EngineNeverSeesBytesPastTheEnd : Prop :=
  ∀ (i : Instr) (s t u : State), i.wf = true → s.Inv →
    t = { s with buf := t.buf, epoch := t.epoch } →
    (∀ a, a < s.bufLen.toNat → rawByte t a = rawByte s a) →
    exec i s = .next u → exec i t = .next { u with buf := t.buf, epoch := t.epoch }

/-- PENDING is not observable while no command is pending (R25, R39, U11): runs of any length from two
states that differ in it alone go on or stop alike, with the same observation and the same buffer. The schedule
that the runs take is the model's, log entry 4. -/
def Obligations.PendingIsHiddenWhileIdle : Prop :=
  ∀ (s : State) (w : Word) (k : Nat), s.busy = false →
    OutcomesAgree (fun a b => b.observe = a.observe ∧ ∀ x, rawByte b x = rawByte a x)
      (runFrom k s) (runFrom k { s with pending := w })

/-- A run never stops exactly when its schedule obeys the busy protocol: after a CMD write only STATUS
reads until the engine's step, and no inadmissible access (R209, R210, R234). That a hazard or a refused
access ends the run is the model's choice, log entry 11, and so is the schedule, log entry 4. -/
def Obligations.ProtocolIsExactlyWhatNeverStops : Prop :=
  ∀ s : State, obeysProtocol s.busy s.schedule = true ↔ ∀ k, ∃ t, runFrom k s = .next t

/-- `wait` ends: however many STATUS reads see BUSY = 1 first, the last read sees BUSY = 0 and DONE = 1
(R97, R239). -/
def Obligations.WaitEnds : Prop :=
  ∀ (s : State) (n : Nat) (rest : List Turn), s.busy = true →
    s.schedule = waitTurns n ++ rest →
    ∃ (t : State) (v : Word), runFrom (n + 2) s = .next t ∧
      t.busy = false ∧ t.done = true ∧ t.schedule = rest ∧
      t.hostReads = s.hostReads ++ List.replicate n (.word (statusWord s)) ++ [.word v] ∧
      (statusWord s).getLsbD 0 = true ∧ v.getLsbD 0 = false ∧ v.getLsbD 1 = true

/-- A STATUS read and the engine's step commute: both orders reach the same block, the read returning
BUSY = 1 before the step, and BUSY = 0 with DONE = 1 after it (R212). -/
def Obligations.StatusReadCommutesWithTheEngine : Prop :=
  ∀ (s : State) (rest : List Turn), s.busy = true →
    ∃ (t : State) (before after : Word),
      runFrom 2 { s with schedule := statusTurn :: .engine :: rest } =
        .next { t with hostReads := s.hostReads ++ [.word before] } ∧
      runFrom 2 { s with schedule := .engine :: statusTurn :: rest } =
        .next { t with hostReads := s.hostReads ++ [.word after] } ∧
      before.getLsbD 0 = true ∧ after.getLsbD 0 = false ∧ after.getLsbD 1 = true

/-- `load` stores its bytes one after another from its address and changes no other byte (R97). -/
def Obligations.LoadStoresTheBytes : Prop :=
  ∀ (s : State) (a : Nat) (bytes : List Byte) (rest : List Turn), s.busy = false →
    s.bufCap.toNat ≤ 32768 → a + bytes.length ≤ s.bufCap.toNat →
    s.schedule = loadTurns a bytes ++ rest →
    ∃ t : State, runFrom bytes.length s = .next t ∧ t.schedule = rest ∧
      (∀ k (h : k < bytes.length), rawByte t (a + k) = bytes[k]) ∧
      (∀ b, b < a ∨ a + bytes.length ≤ b → rawByte t b = rawByte s b) ∧
      t.busy = false ∧ t.bufLen = s.bufLen ∧ t.result = s.result

/-- Every pseudo-instruction that waits for its command keeps the protocol, and leaves what follows it
free to (R97, R234); a bare CMD write leaves the wait to what follows. -/
def Obligations.PseudoInstructionsKeepTheProtocol : Prop :=
  ∀ (op : HostOp) (rest : List Turn), op.fits = true → (∀ a, op ≠ .access a) →
    obeysProtocol false (op.turns ++ rest) =
      obeysProtocol (match op with | .cmd _ => true | _ => false) rest

/-- `exec C` from an idle block: the CMD write, the poll and the engine's step leave exactly what the
command does to the block, and return the polled STATUS words (R24, R90, R97). The schedule and the chosen
number of polls are the model's choices, log entries 4 and 17; it holds for every number. -/
def Obligations.ExecPseudoInstructionRunsTheCommand : Prop :=
  ∀ (s : State) (i : Instr) (n : Nat) (rest : List Turn), s.busy = false → i.wf = true →
    s.schedule = (HostOp.exec i n).turns ++ rest →
    ∃ t : State, exec i (cmdWrite (encode i) s) = .next t ∧
      runFrom (n + 3) s = .next { t with
        schedule := rest
        hostReads := s.hostReads ++
          List.replicate n (.word (statusWord (cmdWrite (encode i) s))) ++ [.word (statusWord t)] }

/-- A run that keeps the protocol ends: one step after its last turn no turn is left and no command is
pending (R239, R240; that a pending command runs when no turn is left is log entry 4). -/
def Obligations.EveryProtocolRunFinishes : Prop :=
  ∀ s : State, obeysProtocol s.busy s.schedule = true →
    ∃ t : State, runFrom (s.schedule.length + 1) s = .next t ∧ t.schedule = [] ∧ t.finished = true
end

