-- ==== Sys2Proof/Laws/Config.lean ====
section
/-! SUPPORT. The values of the parameters that stand in widths and bounds, for arithmetic (spec/00_scope.md
R7). -/

namespace Sys2Proof.Config

@[simp] theorem resultWidth_eq : resultWidth = 64 := rfl
@[simp] theorem byteoffWidth_eq : byteoffWidth = 16 := rfl
@[simp] theorem slotCount_eq : slotCount = 4 := rfl

end Sys2Proof.Config
end

