-- ==== Sys2Proof/Laws/State.lean ====
section
/-! SUPPORT. What each update of the state does to each field: one lemma a field, true by unfolding the
update once, so that no later proof unfolds it. -/

namespace Sys2Proof.Machine

/-! ### a VROOT that succeeds latches the record (R137) -/

@[simp] theorem latchRoot_pending (n : Byte) (s : State) :
    (latchRoot n s).pending = s.pending := rfl
@[simp] theorem latchRoot_busy (n : Byte) (s : State) : (latchRoot n s).busy = s.busy := rfl
@[simp] theorem latchRoot_done (n : Byte) (s : State) : (latchRoot n s).done = s.done := rfl
@[simp] theorem latchRoot_err (n : Byte) (s : State) : (latchRoot n s).err = s.err := rfl
@[simp] theorem latchRoot_ecode (n : Byte) (s : State) : (latchRoot n s).ecode = s.ecode := rfl
@[simp] theorem latchRoot_rootOk (n : Byte) (s : State) : (latchRoot n s).rootOk = true := rfl
@[simp] theorem latchRoot_extCnt (n : Byte) (s : State) : (latchRoot n s).extCnt = n := rfl
@[simp] theorem latchRoot_result (n : Byte) (s : State) : (latchRoot n s).result = s.result := rfl
@[simp] theorem latchRoot_bufLen (n : Byte) (s : State) : (latchRoot n s).bufLen = s.bufLen := rfl
@[simp] theorem latchRoot_bufCap (n : Byte) (s : State) : (latchRoot n s).bufCap = s.bufCap := rfl
@[simp] theorem latchRoot_buf (n : Byte) (s : State) : (latchRoot n s).buf = s.buf := rfl
@[simp] theorem latchRoot_epoch (n : Byte) (s : State) : (latchRoot n s).epoch = s.epoch := rfl
@[simp] theorem latchRoot_schedule (n : Byte) (s : State) :
    (latchRoot n s).schedule = s.schedule := rfl
@[simp] theorem latchRoot_hostReads (n : Byte) (s : State) :
    (latchRoot n s).hostReads = s.hostReads := rfl

/-! ### the record is withdrawn (R31) -/

@[simp] theorem clearRoot_pending (s : State) : (clearRoot s).pending = s.pending := rfl
@[simp] theorem clearRoot_busy (s : State) : (clearRoot s).busy = s.busy := rfl
@[simp] theorem clearRoot_done (s : State) : (clearRoot s).done = s.done := rfl
@[simp] theorem clearRoot_err (s : State) : (clearRoot s).err = s.err := rfl
@[simp] theorem clearRoot_ecode (s : State) : (clearRoot s).ecode = s.ecode := rfl
@[simp] theorem clearRoot_rootOk (s : State) : (clearRoot s).rootOk = false := rfl
@[simp] theorem clearRoot_extCnt (s : State) : (clearRoot s).extCnt = 0#8 := rfl
@[simp] theorem clearRoot_result (s : State) : (clearRoot s).result = s.result := rfl
@[simp] theorem clearRoot_bufLen (s : State) : (clearRoot s).bufLen = s.bufLen := rfl
@[simp] theorem clearRoot_bufCap (s : State) : (clearRoot s).bufCap = s.bufCap := rfl
@[simp] theorem clearRoot_buf (s : State) : (clearRoot s).buf = s.buf := rfl
@[simp] theorem clearRoot_epoch (s : State) : (clearRoot s).epoch = s.epoch := rfl
@[simp] theorem clearRoot_schedule (s : State) : (clearRoot s).schedule = s.schedule := rfl
@[simp] theorem clearRoot_hostReads (s : State) : (clearRoot s).hostReads = s.hostReads := rfl

/-! ### successful completion (R202) -/

@[simp] theorem finish_pending (v : DWord) (s : State) : (finish v s).pending = s.pending := rfl
@[simp] theorem finish_busy (v : DWord) (s : State) : (finish v s).busy = false := rfl
@[simp] theorem finish_done (v : DWord) (s : State) : (finish v s).done = true := rfl
@[simp] theorem finish_err (v : DWord) (s : State) : (finish v s).err = s.err := rfl
@[simp] theorem finish_ecode (v : DWord) (s : State) : (finish v s).ecode = s.ecode := rfl
@[simp] theorem finish_rootOk (v : DWord) (s : State) : (finish v s).rootOk = s.rootOk := rfl
@[simp] theorem finish_extCnt (v : DWord) (s : State) : (finish v s).extCnt = s.extCnt := rfl
@[simp] theorem finish_result (v : DWord) (s : State) : (finish v s).result = v := rfl
@[simp] theorem finish_bufLen (v : DWord) (s : State) : (finish v s).bufLen = s.bufLen := rfl
@[simp] theorem finish_bufCap (v : DWord) (s : State) : (finish v s).bufCap = s.bufCap := rfl
@[simp] theorem finish_buf (v : DWord) (s : State) : (finish v s).buf = s.buf := rfl
@[simp] theorem finish_epoch (v : DWord) (s : State) : (finish v s).epoch = s.epoch := rfl
@[simp] theorem finish_schedule (v : DWord) (s : State) : (finish v s).schedule = s.schedule := rfl
@[simp] theorem finish_hostReads (v : DWord) (s : State) :
    (finish v s).hostReads = s.hostReads := rfl

/-! ### error completion (R203) -/

@[simp] theorem raiseError_pending (c : ErrorCode) (s : State) :
    (raiseError c s).pending = s.pending := rfl
@[simp] theorem raiseError_busy (c : ErrorCode) (s : State) : (raiseError c s).busy = false := rfl
@[simp] theorem raiseError_done (c : ErrorCode) (s : State) : (raiseError c s).done = true := rfl
@[simp] theorem raiseError_err (c : ErrorCode) (s : State) : (raiseError c s).err = true := rfl
@[simp] theorem raiseError_ecode (c : ErrorCode) (s : State) :
    (raiseError c s).ecode = c.number := rfl
@[simp] theorem raiseError_rootOk (c : ErrorCode) (s : State) :
    (raiseError c s).rootOk = s.rootOk := rfl
@[simp] theorem raiseError_extCnt (c : ErrorCode) (s : State) :
    (raiseError c s).extCnt = s.extCnt := rfl
@[simp] theorem raiseError_result (c : ErrorCode) (s : State) :
    (raiseError c s).result = s.result := rfl
@[simp] theorem raiseError_bufLen (c : ErrorCode) (s : State) :
    (raiseError c s).bufLen = s.bufLen := rfl
@[simp] theorem raiseError_bufCap (c : ErrorCode) (s : State) :
    (raiseError c s).bufCap = s.bufCap := rfl
@[simp] theorem raiseError_buf (c : ErrorCode) (s : State) : (raiseError c s).buf = s.buf := rfl
@[simp] theorem raiseError_epoch (c : ErrorCode) (s : State) :
    (raiseError c s).epoch = s.epoch := rfl
@[simp] theorem raiseError_schedule (c : ErrorCode) (s : State) :
    (raiseError c s).schedule = s.schedule := rfl
@[simp] theorem raiseError_hostReads (c : ErrorCode) (s : State) :
    (raiseError c s).hostReads = s.hostReads := rfl

/-! ### the CMD write (R24) -/

@[simp] theorem cmdWrite_pending (w : Word) (s : State) : (cmdWrite w s).pending = w := rfl
@[simp] theorem cmdWrite_busy (w : Word) (s : State) : (cmdWrite w s).busy = true := rfl
@[simp] theorem cmdWrite_done (w : Word) (s : State) : (cmdWrite w s).done = false := rfl
@[simp] theorem cmdWrite_err (w : Word) (s : State) : (cmdWrite w s).err = false := rfl
@[simp] theorem cmdWrite_ecode (w : Word) (s : State) : (cmdWrite w s).ecode = 0#4 := rfl
@[simp] theorem cmdWrite_rootOk (w : Word) (s : State) : (cmdWrite w s).rootOk = s.rootOk := rfl
@[simp] theorem cmdWrite_extCnt (w : Word) (s : State) : (cmdWrite w s).extCnt = s.extCnt := rfl
@[simp] theorem cmdWrite_result (w : Word) (s : State) : (cmdWrite w s).result = s.result := rfl
@[simp] theorem cmdWrite_bufLen (w : Word) (s : State) : (cmdWrite w s).bufLen = s.bufLen := rfl
@[simp] theorem cmdWrite_bufCap (w : Word) (s : State) : (cmdWrite w s).bufCap = s.bufCap := rfl
@[simp] theorem cmdWrite_buf (w : Word) (s : State) : (cmdWrite w s).buf = s.buf := rfl
@[simp] theorem cmdWrite_epoch (w : Word) (s : State) : (cmdWrite w s).epoch = s.epoch := rfl
@[simp] theorem cmdWrite_schedule (w : Word) (s : State) :
    (cmdWrite w s).schedule = s.schedule := rfl
@[simp] theorem cmdWrite_hostReads (w : Word) (s : State) :
    (cmdWrite w s).hostReads = s.hostReads := rfl

/-! ### the host buffer write (R55) -/

@[simp] theorem bufWrite_pending (a : Nat) (v : Byte) (s : State) :
    (bufWrite a v s).pending = s.pending := rfl
@[simp] theorem bufWrite_busy (a : Nat) (v : Byte) (s : State) :
    (bufWrite a v s).busy = s.busy := rfl
@[simp] theorem bufWrite_done (a : Nat) (v : Byte) (s : State) :
    (bufWrite a v s).done = s.done := rfl
@[simp] theorem bufWrite_err (a : Nat) (v : Byte) (s : State) : (bufWrite a v s).err = s.err := rfl
@[simp] theorem bufWrite_ecode (a : Nat) (v : Byte) (s : State) :
    (bufWrite a v s).ecode = s.ecode := rfl
@[simp] theorem bufWrite_rootOk (a : Nat) (v : Byte) (s : State) :
    (bufWrite a v s).rootOk = false := rfl
@[simp] theorem bufWrite_extCnt (a : Nat) (v : Byte) (s : State) :
    (bufWrite a v s).extCnt = 0#8 := rfl
@[simp] theorem bufWrite_result (a : Nat) (v : Byte) (s : State) :
    (bufWrite a v s).result = s.result := rfl
@[simp] theorem bufWrite_bufLen (a : Nat) (v : Byte) (s : State) :
    (bufWrite a v s).bufLen = s.bufLen := rfl
@[simp] theorem bufWrite_bufCap (a : Nat) (v : Byte) (s : State) :
    (bufWrite a v s).bufCap = s.bufCap := rfl
@[simp] theorem bufWrite_buf (a : Nat) (v : Byte) (s : State) :
    (bufWrite a v s).buf = Memory.store s.buf a v := rfl
@[simp] theorem bufWrite_epoch (a : Nat) (v : Byte) (s : State) :
    (bufWrite a v s).epoch = s.epoch := rfl
@[simp] theorem bufWrite_schedule (a : Nat) (v : Byte) (s : State) :
    (bufWrite a v s).schedule = s.schedule := rfl
@[simp] theorem bufWrite_hostReads (a : Nat) (v : Byte) (s : State) :
    (bufWrite a v s).hostReads = s.hostReads := rfl

/-! ### the BUF_LEN write (R57) -/

@[simp] theorem lenWrite_pending (v : Word) (s : State) : (lenWrite v s).pending = s.pending := rfl
@[simp] theorem lenWrite_busy (v : Word) (s : State) : (lenWrite v s).busy = s.busy := rfl
@[simp] theorem lenWrite_done (v : Word) (s : State) : (lenWrite v s).done = s.done := rfl
@[simp] theorem lenWrite_err (v : Word) (s : State) : (lenWrite v s).err = s.err := rfl
@[simp] theorem lenWrite_ecode (v : Word) (s : State) : (lenWrite v s).ecode = s.ecode := rfl
@[simp] theorem lenWrite_rootOk (v : Word) (s : State) : (lenWrite v s).rootOk = false := rfl
@[simp] theorem lenWrite_extCnt (v : Word) (s : State) : (lenWrite v s).extCnt = 0#8 := rfl
@[simp] theorem lenWrite_result (v : Word) (s : State) : (lenWrite v s).result = s.result := rfl
@[simp] theorem lenWrite_bufLen (v : Word) (s : State) :
    (lenWrite v s).bufLen = clampedLen s.bufCap v := rfl
@[simp] theorem lenWrite_bufCap (v : Word) (s : State) : (lenWrite v s).bufCap = s.bufCap := rfl
@[simp] theorem lenWrite_buf (v : Word) (s : State) : (lenWrite v s).buf = s.buf := rfl
@[simp] theorem lenWrite_epoch (v : Word) (s : State) : (lenWrite v s).epoch = s.epoch := rfl
@[simp] theorem lenWrite_schedule (v : Word) (s : State) :
    (lenWrite v s).schedule = s.schedule := rfl
@[simp] theorem lenWrite_hostReads (v : Word) (s : State) :
    (lenWrite v s).hostReads = s.hostReads := rfl

/-! ### a host read (R61) -/

@[simp] theorem returnRead_pending (v : ReadValue) (s : State) :
    (returnRead v s).pending = s.pending := rfl
@[simp] theorem returnRead_busy (v : ReadValue) (s : State) : (returnRead v s).busy = s.busy := rfl
@[simp] theorem returnRead_done (v : ReadValue) (s : State) : (returnRead v s).done = s.done := rfl
@[simp] theorem returnRead_err (v : ReadValue) (s : State) : (returnRead v s).err = s.err := rfl
@[simp] theorem returnRead_ecode (v : ReadValue) (s : State) :
    (returnRead v s).ecode = s.ecode := rfl
@[simp] theorem returnRead_rootOk (v : ReadValue) (s : State) :
    (returnRead v s).rootOk = s.rootOk := rfl
@[simp] theorem returnRead_extCnt (v : ReadValue) (s : State) :
    (returnRead v s).extCnt = s.extCnt := rfl
@[simp] theorem returnRead_result (v : ReadValue) (s : State) :
    (returnRead v s).result = s.result := rfl
@[simp] theorem returnRead_bufLen (v : ReadValue) (s : State) :
    (returnRead v s).bufLen = s.bufLen := rfl
@[simp] theorem returnRead_bufCap (v : ReadValue) (s : State) :
    (returnRead v s).bufCap = s.bufCap := rfl
@[simp] theorem returnRead_buf (v : ReadValue) (s : State) : (returnRead v s).buf = s.buf := rfl
@[simp] theorem returnRead_epoch (v : ReadValue) (s : State) :
    (returnRead v s).epoch = s.epoch := rfl
@[simp] theorem returnRead_schedule (v : ReadValue) (s : State) :
    (returnRead v s).schedule = s.schedule := rfl
@[simp] theorem returnRead_hostReads (v : ReadValue) (s : State) :
    (returnRead v s).hostReads = s.hostReads ++ [v] := rfl

/-! ### the reset event (R230) -/

@[simp] theorem resetEvent_pending (s : State) : (resetEvent s).pending = 0#32 := rfl
@[simp] theorem resetEvent_busy (s : State) : (resetEvent s).busy = false := rfl
@[simp] theorem resetEvent_done (s : State) : (resetEvent s).done = false := rfl
@[simp] theorem resetEvent_err (s : State) : (resetEvent s).err = false := rfl
@[simp] theorem resetEvent_ecode (s : State) : (resetEvent s).ecode = 0#4 := rfl
@[simp] theorem resetEvent_rootOk (s : State) : (resetEvent s).rootOk = false := rfl
@[simp] theorem resetEvent_extCnt (s : State) : (resetEvent s).extCnt = 0#8 := rfl
@[simp] theorem resetEvent_result (s : State) : (resetEvent s).result = 0#64 := rfl
@[simp] theorem resetEvent_bufLen (s : State) : (resetEvent s).bufLen = 0#16 := rfl
@[simp] theorem resetEvent_bufCap (s : State) : (resetEvent s).bufCap = s.bufCap := rfl
@[simp] theorem resetEvent_buf (s : State) : (resetEvent s).buf = [] := rfl
@[simp] theorem resetEvent_epoch (s : State) : (resetEvent s).epoch = s.epoch + 1 := rfl
@[simp] theorem resetEvent_schedule (s : State) : (resetEvent s).schedule = s.schedule := rfl
@[simp] theorem resetEvent_hostReads (s : State) : (resetEvent s).hostReads = s.hostReads := rfl

/-! ### a turn taken off the schedule -/

@[simp] theorem turnTaken_pending (s : State) : (s.turnTaken).pending = s.pending := rfl
@[simp] theorem turnTaken_busy (s : State) : (s.turnTaken).busy = s.busy := rfl
@[simp] theorem turnTaken_done (s : State) : (s.turnTaken).done = s.done := rfl
@[simp] theorem turnTaken_err (s : State) : (s.turnTaken).err = s.err := rfl
@[simp] theorem turnTaken_ecode (s : State) : (s.turnTaken).ecode = s.ecode := rfl
@[simp] theorem turnTaken_rootOk (s : State) : (s.turnTaken).rootOk = s.rootOk := rfl
@[simp] theorem turnTaken_extCnt (s : State) : (s.turnTaken).extCnt = s.extCnt := rfl
@[simp] theorem turnTaken_result (s : State) : (s.turnTaken).result = s.result := rfl
@[simp] theorem turnTaken_bufLen (s : State) : (s.turnTaken).bufLen = s.bufLen := rfl
@[simp] theorem turnTaken_bufCap (s : State) : (s.turnTaken).bufCap = s.bufCap := rfl
@[simp] theorem turnTaken_buf (s : State) : (s.turnTaken).buf = s.buf := rfl
@[simp] theorem turnTaken_epoch (s : State) : (s.turnTaken).epoch = s.epoch := rfl
@[simp] theorem turnTaken_schedule (s : State) : (s.turnTaken).schedule = s.schedule.tail := rfl
@[simp] theorem turnTaken_hostReads (s : State) : (s.turnTaken).hostReads = s.hostReads := rfl

end Sys2Proof.Machine
end

