-- ==== Sys2Proof/Laws/Memory.lean ====
section
/-! SUPPORT. The buffer's written bytes: a read after a write, and the canonical form, which every
memory operation keeps. -/

namespace Sys2Proof.Machine

@[simp] theorem lookup_nil (a : Nat) : Memory.lookup [] a = none := rfl

theorem lookup_cons (b : Nat) (v : Byte) (m : Memory) (a : Nat) :
    Memory.lookup ((b, v) :: m) a = if a = b then some v else Memory.lookup m a := rfl

/-- What the reads of a memory are after a store. -/
theorem lookup_store (m : Memory) (a b : Nat) (v : Byte) :
    Memory.lookup (Memory.store m a v) b = if b = a then some v else Memory.lookup m b := by
  induction m with
  | nil => simp [Memory.store, lookup_cons]
  | cons c m ih =>
    obtain ⟨k, w⟩ := c
    simp only [Memory.store]
    split
    · simp [lookup_cons]
    · split
      · subst_vars
        simp only [lookup_cons]
        split <;> simp_all
      · simp only [lookup_cons, ih]
        split <;> split <;> simp_all

theorem above_cons (k b : Nat) (w : Byte) (m : Memory) :
    Memory.above k ((b, w) :: m) = true ↔ k < b ∧ Memory.above k m = true := by
  simp [Memory.above]

theorem within_cons (cap b : Nat) (w : Byte) (m : Memory) :
    Memory.within cap ((b, w) :: m) = true ↔ b < cap ∧ Memory.within cap m = true := by
  simp [Memory.within]

theorem wf_cons (b : Nat) (w : Byte) (m : Memory) :
    Memory.wf ((b, w) :: m) = true ↔ Memory.above b m = true ∧ Memory.wf m = true := by
  simp [Memory.wf]

theorem above_store (m : Memory) (a k : Nat) (v : Byte) (hk : k < a)
    (h : Memory.above k m = true) : Memory.above k (Memory.store m a v) = true := by
  induction m with
  | nil => exact (above_cons k a v []).2 ⟨hk, rfl⟩
  | cons c m ih =>
    obtain ⟨b, w⟩ := c
    obtain ⟨hkb, hkm⟩ := (above_cons k b w m).1 h
    simp only [Memory.store]
    split
    · exact (above_cons ..).2 ⟨hk, h⟩
    · split
      · exact (above_cons ..).2 ⟨hk, hkm⟩
      · exact (above_cons ..).2 ⟨hkb, ih hkm⟩

theorem above_trans (m : Memory) (j k : Nat) (hjk : j < k) (h : Memory.above k m = true) :
    Memory.above j m = true := by
  simp only [Memory.above, List.all_eq_true, decide_eq_true_eq] at h ⊢
  intro c hc
  have := h c hc
  omega

/-- A store keeps the canonical form. -/
theorem store_wf (m : Memory) (a : Nat) (v : Byte) (h : Memory.wf m = true) :
    Memory.wf (Memory.store m a v) = true := by
  induction m with
  | nil => rfl
  | cons c m ih =>
    obtain ⟨b, w⟩ := c
    obtain ⟨hbm, hm⟩ := (wf_cons b w m).1 h
    simp only [Memory.store]
    split
    · rename_i hab
      exact (wf_cons ..).2 ⟨(above_cons ..).2 ⟨hab, above_trans m a b hab hbm⟩, h⟩
    · split
      · rename_i hab
        exact (wf_cons ..).2 ⟨hab ▸ hbm, hm⟩
      · exact (wf_cons ..).2 ⟨above_store m a b v (by omega) hbm, ih hm⟩

/-- A store below the capacity keeps every listed address below it. -/
theorem store_within (m : Memory) (cap a : Nat) (v : Byte) (ha : a < cap)
    (h : Memory.within cap m = true) : Memory.within cap (Memory.store m a v) = true := by
  induction m with
  | nil => exact (within_cons ..).2 ⟨ha, rfl⟩
  | cons c m ih =>
    obtain ⟨b, w⟩ := c
    obtain ⟨hb, hm⟩ := (within_cons cap b w m).1 h
    simp only [Memory.store]
    split
    · exact (within_cons ..).2 ⟨ha, h⟩
    · split
      · exact (within_cons ..).2 ⟨ha, hm⟩
      · exact (within_cons ..).2 ⟨hb, ih hm⟩

theorem lookup_of_above (m : Memory) (k a : Nat) (hka : a ≤ k) (h : Memory.above k m = true) :
    Memory.lookup m a = none := by
  induction m with
  | nil => rfl
  | cons c m ih =>
    obtain ⟨b, w⟩ := c
    simp only [Memory.above, List.all_cons, Bool.and_eq_true, decide_eq_true_eq] at h ih
    rw [lookup_cons, if_neg (by omega), ih h.2]

/-- In canonical form, memories that read alike are equal data. -/
theorem wf_ext (m n : Memory) (hm : Memory.wf m = true) (hn : Memory.wf n = true)
    (h : ∀ a, Memory.lookup m a = Memory.lookup n a) : m = n := by
  induction m generalizing n with
  | nil =>
    cases n with
    | nil => rfl
    | cons d n =>
      obtain ⟨b, w⟩ := d
      have := h b
      simp [lookup_cons] at this
  | cons c m ih =>
    obtain ⟨a, v⟩ := c
    simp only [Memory.wf, Bool.and_eq_true] at hm
    cases n with
    | nil =>
      have := h a
      simp [lookup_cons] at this
    | cons d n =>
      obtain ⟨b, w⟩ := d
      simp only [Memory.wf, Bool.and_eq_true] at hn
      have hab : a = b := by
        rcases Nat.lt_trichotomy a b with hlt | heq | hgt
        · have := h a
          rw [lookup_cons, lookup_cons, if_pos rfl, if_neg (by omega),
            lookup_of_above n b a (by omega) hn.1] at this
          simp at this
        · exact heq
        · have := h b
          rw [lookup_cons, lookup_cons, if_pos rfl, if_neg (by omega),
            lookup_of_above m a b (by omega) hm.1] at this
          simp at this
      subst hab
      have hv : v = w := by simpa [lookup_cons] using h a
      subst hv
      congr 1
      refine ih n hm.2 hn.2 fun k => ?_
      by_cases hk : k = a
      · subst hk
        rw [lookup_of_above m k k (Nat.le_refl k) hm.1, lookup_of_above n k k (Nat.le_refl k) hn.1]
      · simpa [lookup_cons, hk] using h k

/-- Reset's memory has the canonical form. -/
theorem reset_buf_wf : Memory.wf State.reset.buf = true := rfl

/-- What reads of BUF are after a host buffer write (R55). -/
theorem rawByte_bufWrite (a b : Nat) (v : Byte) (s : State) :
    rawByte (bufWrite a v s) b = if b = a then v else rawByte s b := by
  simp only [rawByte, bufWrite_buf, bufWrite_epoch, lookup_store]
  split <;> simp

/-- A byte of BUF depends on the written bytes and the reset count alone. -/
theorem rawByte_congr {s t : State} (hb : t.buf = s.buf) (he : t.epoch = s.epoch) (a : Nat) :
    rawByte t a = rawByte s a := by
  simp [rawByte, hb, he]

end Sys2Proof.Machine
end

