-- ==== Sys2Proof/Laws/Reads.lean ====
section
/-! SUPPORT. What the engine's reads answer: the little-endian window bit by bit, the mask, the sum as a
sum over the block, and that each depends on the buffer alone. -/

namespace Sys2Proof.Machine

theorem paddedByte_congr {s t : State} (hb : t.buf = s.buf) (he : t.epoch = s.epoch)
    (hl : t.bufLen = s.bufLen) (a : Nat) : paddedByte t a = paddedByte s a := by
  simp [paddedByte, hl, rawByte_congr hb he]

/-- Two states with one BUF_LEN whose stored bytes agree below it have the same padded bytes. -/
theorem paddedByte_of_bytes {s t : State} (hl : t.bufLen = s.bufLen)
    (h : ∀ a, a < s.bufLen.toNat → rawByte t a = rawByte s a) (a : Nat) :
    paddedByte t a = paddedByte s a := by
  simp only [paddedByte, hl]
  split
  · exact h a ‹_›
  · rfl

/-- Two states whose padded bytes agree from `a` on read alike. -/
theorem memRead_of_bytes {s t : State} (a n : Nat)
    (h : ∀ k, k < n → paddedByte t (a + k) = paddedByte s (a + k)) :
    memRead t a n = memRead s a n := by
  induction n with
  | zero => rfl
  | succ n ih => simp only [memRead, h n (by omega), ih fun k hk => h k (by omega)]

/-- Bit `i` of a little-endian read is bit `i % 8` of byte `i / 8` (R50). -/
theorem memRead_getLsbD (s : State) (a n i : Nat) :
    (memRead s a n).getLsbD i =
      (decide (i < 8 * n) && (paddedByte s (a + i / 8)).getLsbD (i % 8)) := by
  induction n with
  | zero => simp [memRead]
  | succ n ih =>
    simp only [memRead, BitVec.getLsbD_cast, BitVec.getLsbD_append, ih]
    by_cases h : i < 8 * n
    · simp [h, show i < 8 * (n + 1) by omega]
    · by_cases h' : i < 8 * (n + 1)
      · have h1 : i / 8 = n := by omega
        have h2 : i - 8 * n = i % 8 := by omega
        simp [h, h', h1, h2]
      · simp [h, h', BitVec.getLsbD_of_ge _ _ (show 8 ≤ i - 8 * n by omega)]

/-- The mask of R110, bit by bit. -/
theorem lowMask_getLsbD (n i : Nat) (hn : n ≤ 64) :
    (lowMask n).getLsbD i = decide (i < n) := by
  unfold lowMask
  split
  · rename_i h
    have h64 : n = 64 := h
    subst h64
    have : (0xFFFFFFFFFFFFFFFF#64) = BitVec.allOnes 64 := by decide
    rw [this, BitVec.getLsbD_allOnes]
  · rw [BitVec.getLsbD_ofNat, Nat.testBit_two_pow_sub_one]
    by_cases h : i < n
    · simp [h, show i < 64 by omega]
    · simp [h]

/-- `ReadBits`, bit by bit (R110): bit `i` is bit `b + i` of the window for `i` below `n`. -/
theorem readBits_getLsbD (s : State) (o b n i : Nat) (hn : n ≤ 64) :
    (readBits s o b n).getLsbD i =
      (decide (i < n ∧ b + i < 64) && (paddedByte s (o + (b + i) / 8)).getLsbD ((b + i) % 8)) := by
  have hw : (memRead s o Config.windowBytes).getLsbD (b + i) = _ := memRead_getLsbD s o 8 (b + i)
  rw [readBits, BitVec.getLsbD_and, lowMask_getLsbD n i hn]
  erw [BitVec.getLsbD_ushiftRight, hw]
  by_cases h1 : i < n <;> by_cases h2 : b + i < 64 <;> simp [h1, h2]

/-- Two states whose padded bytes agree over the window extract alike. -/
theorem readBits_of_bytes {s t : State} (o b n : Nat)
    (h : ∀ k, k < 8 → paddedByte t (o + k) = paddedByte s (o + k)) :
    readBits t o b n = readBits s o b n := by
  rw [readBits, readBits, memRead_of_bytes o Config.windowBytes h]

/-- The sum of a block as a sum over its offsets (R130). -/
theorem byteSum_eq_sum (s : State) (a n : Nat) :
    byteSum s a n = ((List.range n).map fun k => (rawByte s (a + k)).toNat).sum := by
  induction n with
  | zero => rfl
  | succ n ih => simp [byteSum, List.range_succ, ih]

/-- Two states whose stored bytes agree over a block sum it alike. -/
theorem byteSum_of_bytes {s t : State} (a n : Nat)
    (h : ∀ k, k < n → rawByte t (a + k) = rawByte s (a + k)) : byteSum t a n = byteSum s a n := by
  induction n with
  | zero => rfl
  | succ n ih => simp only [byteSum, h n (by omega), ih fun k hk => h k (by omega)]

theorem blockOffset_eq (k : Nat) : blockOffset k = 128 * k := rfl

theorem slotOffset_eq (k : Nat) : slotOffset k = 54 + 18 * k := rfl

/-- The range check of CKSUM and CLEXT (R131, R172). -/
theorem blockBelowEnd_iff (s : State) (k : Nat) :
    blockBelowEnd s (blockOffset k) = true ↔ 128 * k + 128 ≤ s.bufLen.toNat :=
  decide_eq_true_iff

/-- The 8-bit sum as a number (R130). -/
theorem sum8_toNat (s : State) (a : Nat) : (sum8 s a).toNat = byteSum s a 128 % 256 := by
  simp [sum8]

/-- Two states whose stored bytes agree over a block have the same 8-bit sum. -/
theorem sum8_of_bytes {s t : State} (a : Nat)
    (h : ∀ k, k < 128 → rawByte t (a + k) = rawByte s (a + k)) : sum8 t a = sum8 s a := by
  simp only [sum8, byteSum_of_bytes a 128 h]

end Sys2Proof.Machine
end

