-- ==== Sys2Proof/Laws/Commands.lean ====
section
/-! SUPPORT. What a command can do, said once: it completes, by `finish` or by `raiseError`, and only
VROOT touches the record (spec/60_exceptions.md R200, R202, R203). -/

namespace Sys2Proof.Machine

/-- The first failing check of VROOT is one of the four root errors (R132). -/
theorem rootFailure_mem (s : State) (c : ErrorCode) (h : rootFailure s = some c) :
    c ∈ reportable .vroot := by
  unfold rootFailure at h
  repeat' split at h
  all_goals simp_all [reportable]

/-- The first failing check of CLEXT is one of its four errors (R175). -/
theorem extensionFailure_mem (k : Nat) (s : State) (c : ErrorCode)
    (h : extensionFailure k s = some c) : c ∈ reportable (.clext k) := by
  unfold extensionFailure at h
  repeat' split at h
  all_goals simp_all [reportable]

/-- No check of VROOT fails exactly when all four hold (R140). -/
theorem rootFailure_none_iff (s : State) :
    rootFailure s = none ↔ rootLengthOk s = true ∧ rootMagicOk s = true ∧ rootSumOk s = true ∧
      rootVersionOk s = true := by
  unfold rootFailure
  repeat' split
  all_goals simp_all

/-! ### What the checks depend on -/

theorem rootLengthOk_iff (s : State) : rootLengthOk s = true ↔ 128 ≤ s.bufLen.toNat :=
  decide_eq_true_iff

theorem bytesMatch_of_bytes {s t : State} (vs : List Byte) (a : Nat)
    (h : ∀ k, k < vs.length → rawByte t (a + k) = rawByte s (a + k)) :
    bytesMatch t a vs = bytesMatch s a vs := by
  induction vs generalizing a with
  | nil => rfl
  | cons v vs ih =>
    have h0 : rawByte t a = rawByte s a := h 0 (by simp)
    have hs : bytesMatch t (a + 1) vs = bytesMatch s (a + 1) vs := ih (a + 1) fun k hk => by
      have := h (k + 1) (by simpa using hk)
      rwa [← Nat.add_assoc, Nat.add_right_comm] at this
    rw [bytesMatch, bytesMatch, h0, hs]

/-- VROOT's verdict depends on BUF_LEN and on the bytes below it alone. -/
theorem rootFailure_of_bytes {s t : State} (hl : t.bufLen = s.bufLen)
    (h : ∀ a, a < s.bufLen.toNat → rawByte t a = rawByte s a) : rootFailure t = rootFailure s := by
  have e : rootLengthOk t = rootLengthOk s := by rw [rootLengthOk, rootLengthOk, hl]
  cases hlen : rootLengthOk s with
  | false => rw [rootFailure, rootFailure, e, hlen, if_pos rfl, if_pos rfl]
  | true =>
    have h128 := (rootLengthOk_iff s).1 hlen
    have em : rootMagicOk t = rootMagicOk s :=
      bytesMatch_of_bytes rootMagic 0 fun k hk => h _ (by
        have : rootMagic.length = 8 := rfl
        omega)
    have es : rootSumOk t = rootSumOk s := by
      rw [rootSumOk, rootSumOk, sum8_of_bytes 0 fun k hk => h _ (by omega)]
    have ev : rootVersionOk t = rootVersionOk s := by
      rw [rootVersionOk, rootVersionOk, h 18 (by omega), h 19 (by omega)]
    rw [rootFailure, rootFailure, e, em, es, ev]

/-- CLEXT's verdict depends on the record, on BUF_LEN and on the bytes below it alone. -/
theorem extensionFailure_of_bytes {s t : State} (x : Nat) (hl : t.bufLen = s.bufLen)
    (hr : t.rootOk = s.rootOk) (hc : t.extCnt = s.extCnt)
    (h : ∀ a, a < s.bufLen.toNat → rawByte t a = rawByte s a) :
    extensionFailure x t = extensionFailure x s := by
  have e : blockBelowEnd t (blockOffset x) = blockBelowEnd s (blockOffset x) := by
    rw [blockBelowEnd, blockBelowEnd, hl]
  cases hb : blockBelowEnd s (blockOffset x) with
  | false => rw [extensionFailure, extensionFailure, hr, hc, e, hb, if_pos rfl, if_pos rfl]
  | true =>
    have hlen := (blockBelowEnd_iff s x).1 hb
    have es : sum8 t (blockOffset x) = sum8 s (blockOffset x) :=
      sum8_of_bytes _ fun k hk => h _ (by rw [blockOffset_eq]; omega)
    rw [extensionFailure, extensionFailure, hr, hc, e, es]

/-! ### What a command does -/

/-- exec answers a next state, and that state is one of four: the command's value or one of its errors
over an unchanged record, or VROOT's latching or withdrawing of the record. -/
abbrev CommandOutcome (i : Instr) (s : State) : Prop :=
  ∃ t, exec i s = .next t ∧
    ((i ≠ .vroot ∧ ∃ v, t = finish v s) ∨
     (i ≠ .vroot ∧ ∃ c, c ∈ reportable i ∧ t = raiseError c s) ∨
     (i = .vroot ∧ rootFailure s = none ∧
        t = finish (rootResult s) (latchRoot (rawByte s 126) s)) ∨
     (i = .vroot ∧ ∃ c, rootFailure s = some c ∧ t = raiseError c (clearRoot s)))

/-- Everything a command can do. -/
theorem exec_completes (i : Instr) (s : State) : CommandOutcome i s := by
  have fin : ∀ j v, j ≠ .vroot → exec j s = .next (finish v s) → CommandOutcome j s :=
    fun j v hj h => ⟨_, h, .inl ⟨hj, v, rfl⟩⟩
  have err : ∀ j c, j ≠ .vroot → c ∈ reportable j → exec j s = .next (raiseError c s) →
      CommandOutcome j s := fun j c hj hc h => ⟨_, h, .inr (.inl ⟨hj, c, hc, rfl⟩)⟩
  cases i with
  | rdbits o b n =>
    by_cases h1 : b > Config.maxBitoff
    · exact err _ .domain (by simp) (by simp [reportable]) (by simp only [exec, execRdbits, if_pos h1])
    · by_cases h2 : n < 1 ∨ n > Config.maxBits
      · exact err _ .domain (by simp) (by simp [reportable])
          (by simp only [exec, execRdbits, if_neg h1, if_pos h2])
      · exact fin _ (readBits s o b n) (by simp)
          (by simp only [exec, execRdbits, if_neg h1, if_neg h2])
  | rdbyte o => exact fin _ _ (by simp) rfl
  | rdbytes o n =>
    by_cases h1 : n > Config.windowBytes
    · exact err _ .domain (by simp) (by simp [reportable]) (by simp only [exec, execRdbytes, if_pos h1])
    · by_cases h2 : n = 0
      · exact fin _ 0#64 (by simp)
          (by simp only [exec, execRdbytes, if_neg h1, if_pos h2])
      · exact fin _ (readBits s o 0 (8 * n)) (by simp)
          (by simp only [exec, execRdbytes, if_neg h1, if_neg h2])
  | cksum k =>
    by_cases h : blockBelowEnd s (blockOffset k) = true
    · exact fin _ ((sum8 s (blockOffset k)).setWidth 64) (by simp)
          (by simp only [exec, execCksum, if_pos h])
    · exact err _ .range (by simp) (by simp [reportable]) (by simp only [exec, execCksum, if_neg h])
  | vroot =>
    cases h : rootFailure s with
    | none => exact ⟨_, by simp only [exec, execVroot, h], .inr (.inr (.inl ⟨rfl, h, rfl⟩))⟩
    | some c => exact ⟨_, by simp only [exec, execVroot, h], .inr (.inr (.inr ⟨rfl, c, h, rfl⟩))⟩
  | cldesc k =>
    by_cases h : s.rootOk = false
    · exact err _ .noRoot (by simp) (by simp [reportable]) (by simp only [exec, execCldesc, if_pos h])
    · exact fin _ (descriptorResult (slotOffset k) (headerAt s (slotOffset k))) (by simp)
          (by simp only [exec, execCldesc, if_neg h])
  | clext k =>
    cases h : extensionFailure k s with
    | none =>
      exact fin _ (extensionResult (blockOffset k) s) (by simp)
          (by simp only [exec, execClext, h])
    | some c =>
      exact err _ c (by simp) (extensionFailure_mem k s c h) (by simp only [exec, execClext, h])

/-! ### What a command does not depend on -/

/-- A command neither reads nor writes what lies outside the block: the turns to come and the values
host reads returned. -/
theorem exec_outside (i : Instr) (s t : State) (ts : List Turn) (l : List ReadValue)
    (h : exec i s = .next t) :
    exec i { s with schedule := ts, hostReads := l } =
      .next { t with schedule := ts, hostReads := l } := by
  have hrb : ∀ o b n, readBits { s with schedule := ts, hostReads := l } o b n = readBits s o b n :=
    fun o b n => readBits_of_bytes o b n fun k _ => paddedByte_congr rfl rfl rfl (o + k)
  have hsm : ∀ a, sum8 { s with schedule := ts, hostReads := l } a = sum8 s a :=
    fun a => sum8_of_bytes a fun k _ => rawByte_congr rfl rfl (a + k)
  cases i with
  | rdbits o b n =>
    simp only [exec, execRdbits] at h ⊢
    split at h
    · rename_i hc
      rw [if_pos hc]
      cases h
      rfl
    · rename_i hc
      rw [if_neg hc]
      split at h
      · rename_i hc
        rw [if_pos hc]
        cases h
        rfl
      · rename_i hc
        rw [if_neg hc, hrb]
        cases h
        rfl
  | rdbyte o =>
    simp only [exec, execRdbyte] at h ⊢
    rw [hrb]
    cases h
    rfl
  | rdbytes o n =>
    simp only [exec, execRdbytes] at h ⊢
    split at h
    · rename_i hc
      rw [if_pos hc]
      cases h
      rfl
    · rename_i hc
      rw [if_neg hc]
      split at h
      · rename_i hc
        rw [if_pos hc]
        cases h
        rfl
      · rename_i hc
        rw [if_neg hc, hrb]
        cases h
        rfl
  | cksum k =>
    simp only [exec, execCksum] at h ⊢
    have hbe : blockBelowEnd { s with schedule := ts, hostReads := l } (blockOffset k) =
        blockBelowEnd s (blockOffset k) := rfl
    rw [hbe, hsm]
    split at h
    · rename_i hc
      rw [if_pos hc]
      cases h
      rfl
    · rename_i hc
      rw [if_neg hc]
      cases h
      rfl
  | vroot =>
    have hf : rootFailure { s with schedule := ts, hostReads := l } = rootFailure s :=
      rootFailure_of_bytes rfl fun a _ => rawByte_congr rfl rfl a
    simp only [exec, execVroot] at h ⊢
    rw [hf]
    cases hq : rootFailure s with
    | none =>
      rw [hq] at h
      cases h
      rfl
    | some c =>
      rw [hq] at h
      cases h
      rfl
  | cldesc k =>
    simp only [exec, execCldesc] at h ⊢
    split at h
    · rename_i hc
      rw [if_pos hc]
      cases h
      rfl
    · rename_i hc
      rw [if_neg hc]
      cases h
      rfl
  | clext k =>
    have hf : extensionFailure k { s with schedule := ts, hostReads := l } = extensionFailure k s :=
      extensionFailure_of_bytes k rfl rfl rfl fun a _ => rawByte_congr rfl rfl a
    simp only [exec, execClext] at h ⊢
    rw [hf]
    cases hq : extensionFailure k s with
    | none =>
      rw [hq] at h
      cases h
      rfl
    | some c =>
      rw [hq] at h
      cases h
      rfl

end Sys2Proof.Machine
end

