-- ==== Sys2Proof/Laws/Encoding.lean ====
section
/-! SUPPORT. The encoding in arithmetic: a field of a word is a quotient and a remainder, a row of the
opcode map selects the words with one top quotient, and an encoded word is a sum of its fields. -/

namespace Sys2Proof

/-- `W[hi:lo]` as a quotient and a remainder (R8). -/
theorem wordField_eq (w : Word) (hi lo : Nat) :
    wordField w hi lo = w.toNat / 2 ^ lo % 2 ^ (hi - lo + 1) := by
  simp [wordField, BitVec.extractLsb'_toNat, Nat.shiftRight_eq_div_pow]

/-- BYTEOFF is the low 16 bits of a word (R81). -/
theorem byteoffField_eq (w : Word) : byteoffField w = w.toNat % 65536 := by
  simp [byteoffField, wordField_eq]

/-! ### Which operands fit (R95) -/

theorem fitsByteoff_iff (o : Nat) : fitsByteoff o = true ↔ o < 65536 := decide_eq_true_iff

theorem wf_rdbits_iff (o b n : Nat) :
    (Instr.rdbits o b n).wf = true ↔ o < 65536 ∧ b < 16 ∧ n < 128 := by
  simp [Instr.wf, fitsByteoff_iff, fitsBitoff, fitsCount, and_assoc]

theorem wf_rdbyte_iff (o : Nat) : (Instr.rdbyte o).wf = true ↔ o < 65536 := by
  simp [Instr.wf, fitsByteoff_iff]

theorem wf_rdbytes_iff (o n : Nat) : (Instr.rdbytes o n).wf = true ↔ o < 65536 ∧ n < 16 := by
  simp [Instr.wf, fitsByteoff_iff, fitsNbytes]

theorem wf_cksum_iff (k : Nat) : (Instr.cksum k).wf = true ↔ k < 256 := by
  simp [Instr.wf, fitsIndex]

theorem wf_cldesc_iff (k : Nat) : (Instr.cldesc k).wf = true ↔ k < 4 := by
  simp [Instr.wf, fitsSlot]

theorem wf_clext_iff (k : Nat) : (Instr.clext k).wf = true ↔ k < 256 := by
  simp [Instr.wf, fitsIndex]

/-! ### The rows of the opcode map -/

/-- Masking off the low `k` bits of a word keeps its quotient by `2 ^ k`. -/
theorem and_highMask (x k : Nat) (hx : x < 2 ^ 32) (hk : k ≤ 32) :
    x &&& (2 ^ 32 - 2 ^ k) = x / 2 ^ k * 2 ^ k := by
  have hm : 2 ^ 32 - 2 ^ k = (2 ^ (32 - k) - 1) * 2 ^ k := by
    rw [Nat.sub_mul, ← Nat.pow_add, Nat.sub_add_cancel hk, Nat.one_mul]
  rw [hm]
  apply Nat.eq_of_testBit_eq
  intro i
  rw [Nat.testBit_and, Nat.mul_comm _ (2 ^ k), Nat.mul_comm _ (2 ^ k), Nat.testBit_two_pow_mul,
    Nat.testBit_two_pow_mul, Nat.testBit_two_pow_sub_one, Nat.testBit_div_two_pow]
  by_cases hi : k ≤ i
  · by_cases h32 : i < 32
    · simp [hi, show i - k < 32 - k by omega]
    · have : x.testBit i = false :=
        Nat.testBit_lt_two_pow (Nat.lt_of_lt_of_le hx (Nat.pow_le_pow_right (by omega) (by omega)))
      simp [hi, this]
  · simp [hi]

/-- A row whose mask covers the bits from `k` up selects the words with one quotient by `2 ^ k`. -/
theorem selects_iff_quotient (r : OpcodeRow) (w : Word) (k c : Nat) (hk : k ≤ 32)
    (hm : r.mask.toNat = 2 ^ 32 - 2 ^ k) (hv : r.value.toNat = c * 2 ^ k) :
    r.selects w = true ↔ w.toNat / 2 ^ k = c := by
  rw [OpcodeRow.selects, beq_iff_eq, ← BitVec.toNat_inj, BitVec.toNat_and, hm, hv,
    and_highMask _ _ w.isLt hk]
  exact Nat.mul_left_inj (Nat.two_pow_pos k).ne'

theorem rowRdbits_selects (w : Word) : rowRdbits.selects w = true ↔ w.toNat / 2 ^ 27 = 2 :=
  selects_iff_quotient rowRdbits w 27 2 (by omega) (by decide) (by decide)

theorem rowRdbyte_selects (w : Word) : rowRdbyte.selects w = true ↔ w.toNat / 2 ^ 16 = 0x2000 :=
  selects_iff_quotient rowRdbyte w 16 0x2000 (by omega) (by decide) (by decide)

theorem rowRdbytes_selects (w : Word) : rowRdbytes.selects w = true ↔ w.toNat / 2 ^ 20 = 0x300 :=
  selects_iff_quotient rowRdbytes w 20 0x300 (by omega) (by decide) (by decide)

theorem rowCksum_selects (w : Word) : rowCksum.selects w = true ↔ w.toNat / 2 ^ 8 = 0x400000 :=
  selects_iff_quotient rowCksum w 8 0x400000 (by omega) (by decide) (by decide)

theorem rowVroot_selects (w : Word) : rowVroot.selects w = true ↔ w.toNat / 2 ^ 0 = 0x50000000 :=
  selects_iff_quotient rowVroot w 0 0x50000000 (by omega) (by decide) (by decide)

theorem rowCldesc_selects (w : Word) : rowCldesc.selects w = true ↔ w.toNat / 2 ^ 2 = 0x18000000 :=
  selects_iff_quotient rowCldesc w 2 0x18000000 (by omega) (by decide) (by decide)

theorem rowClext_selects (w : Word) : rowClext.selects w = true ↔ w.toNat / 2 ^ 8 = 0x700000 :=
  selects_iff_quotient rowClext w 8 0x700000 (by omega) (by decide) (by decide)

/-- The decoder as a chain of quotients: one row or none (R90). -/
theorem decode_eq (w : Word) : decode w =
    if w.toNat / 2 ^ 27 = 2 then .ok (rowRdbits.fields w)
    else if w.toNat / 2 ^ 16 = 0x2000 then .ok (rowRdbyte.fields w)
    else if w.toNat / 2 ^ 20 = 0x300 then .ok (rowRdbytes.fields w)
    else if w.toNat / 2 ^ 8 = 0x400000 then .ok (rowCksum.fields w)
    else if w.toNat / 2 ^ 0 = 0x50000000 then .ok (rowVroot.fields w)
    else if w.toNat / 2 ^ 2 = 0x18000000 then .ok (rowCldesc.fields w)
    else if w.toNat / 2 ^ 8 = 0x700000 then .ok (rowClext.fields w)
    else .error (if opField w = 0 ∨ 8 ≤ opField w then .illegalOpcode else .reservedBitSet) := by
  simp only [decode, opcodeRows, List.find?_cons, ← rowRdbits_selects, ← rowRdbyte_selects,
    ← rowRdbytes_selects, ← rowCksum_selects, ← rowVroot_selects, ← rowCldesc_selects,
    ← rowClext_selects]
  cases rowRdbits.selects w
  · cases rowRdbyte.selects w
    · cases rowRdbytes.selects w
      · cases rowCksum.selects w
        · cases rowVroot.selects w
          · cases rowCldesc.selects w
            · cases rowClext.selects w <;> simp
            · simp
          · simp
        · simp
      · simp
    · simp
  · simp

/-- Or-ing a field below bit `k` into a word whose low `k` bits are 0 adds it. -/
theorem or_low_eq_add (x y k : Nat) (hy : y < 2 ^ k) : (x * 2 ^ k) ||| y = x * 2 ^ k + y := by
  rw [Nat.mul_comm, Nat.two_pow_add_eq_or_of_lt hy]

theorem fieldAt_toNat (v lo : Nat) (h : v * 2 ^ lo < 2 ^ 32) : (fieldAt v lo).toNat = v * 2 ^ lo := by
  have hv : v < 2 ^ 32 := Nat.lt_of_le_of_lt (Nat.le_mul_of_pos_right v (Nat.two_pow_pos lo)) h
  rw [fieldAt, BitVec.toNat_shiftLeft, BitVec.toNat_ofNat, Nat.mod_eq_of_lt hv,
    Nat.shiftLeft_eq, Nat.mod_eq_of_lt h]

theorem encode_rdbits_toNat (o b n : Nat) (ho : o < 65536) (hb : b < 16) (hn : n < 128) :
    (encode (.rdbits o b n)).toNat = 0x10000000 + n * 2 ^ 20 + b * 2 ^ 16 + o := by
  simp only [encode, BitVec.toNat_or]
  rw [fieldAt_toNat n 20 (by omega), fieldAt_toNat b 16 (by omega), fieldAt_toNat o 0 (by omega)]
  have h1 := or_low_eq_add 1 (n * 2 ^ 20) 28 (by omega)
  have h2 := or_low_eq_add (256 + n) (b * 2 ^ 16) 20 (by omega)
  have h3 := or_low_eq_add (4096 + n * 16 + b) (o * 2 ^ 0) 16 (by omega)
  have e1 : (0x10000000#32).toNat = 1 * 2 ^ 28 := by decide
  rw [e1, h1, show 1 * 2 ^ 28 + n * 2 ^ 20 = (256 + n) * 2 ^ 20 by omega, h2,
    show (256 + n) * 2 ^ 20 + b * 2 ^ 16 = (4096 + n * 16 + b) * 2 ^ 16 by omega, h3]
  omega

theorem encode_rdbyte_toNat (o : Nat) (ho : o < 65536) :
    (encode (.rdbyte o)).toNat = 0x20000000 + o := by
  simp only [encode, BitVec.toNat_or]
  rw [fieldAt_toNat o 0 (by omega)]
  have h := or_low_eq_add 0x2000 (o * 2 ^ 0) 16 (by omega)
  rw [show (0x20000000#32).toNat = 0x2000 * 2 ^ 16 by decide, h]
  omega

theorem encode_rdbytes_toNat (o n : Nat) (ho : o < 65536) (hn : n < 16) :
    (encode (.rdbytes o n)).toNat = 0x30000000 + n * 2 ^ 16 + o := by
  simp only [encode, BitVec.toNat_or]
  rw [fieldAt_toNat n 16 (by omega), fieldAt_toNat o 0 (by omega)]
  have h1 := or_low_eq_add 0x300 (n * 2 ^ 16) 20 (by omega)
  have h2 := or_low_eq_add (0x3000 + n) (o * 2 ^ 0) 16 (by omega)
  rw [show (0x30000000#32).toNat = 0x300 * 2 ^ 20 by decide, h1,
    show 0x300 * 2 ^ 20 + n * 2 ^ 16 = (0x3000 + n) * 2 ^ 16 by omega, h2]
  omega

theorem encode_cksum_toNat (k : Nat) (hk : k < 256) :
    (encode (.cksum k)).toNat = 0x40000000 + k := by
  simp only [encode, BitVec.toNat_or]
  rw [fieldAt_toNat k 0 (by omega)]
  have h := or_low_eq_add 0x400000 (k * 2 ^ 0) 8 (by omega)
  rw [show (0x40000000#32).toNat = 0x400000 * 2 ^ 8 by decide, h]
  omega

theorem encode_cldesc_toNat (k : Nat) (hk : k < 4) :
    (encode (.cldesc k)).toNat = 0x60000000 + k := by
  simp only [encode, BitVec.toNat_or]
  rw [fieldAt_toNat k 0 (by omega)]
  have h := or_low_eq_add 0x18000000 (k * 2 ^ 0) 2 (by omega)
  rw [show (0x60000000#32).toNat = 0x18000000 * 2 ^ 2 by decide, h]
  omega

theorem encode_clext_toNat (k : Nat) (hk : k < 256) :
    (encode (.clext k)).toNat = 0x70000000 + k := by
  simp only [encode, BitVec.toNat_or]
  rw [fieldAt_toNat k 0 (by omega)]
  have h := or_low_eq_add 0x700000 (k * 2 ^ 0) 8 (by omega)
  rw [show (0x70000000#32).toNat = 0x700000 * 2 ^ 8 by decide, h]
  omega

end Sys2Proof
end

