-- ==== Sys2Proof/Laws/Host.lean ====
section
/-! SUPPORT. What a host access can do, said once (spec/20_memory.md R53, R61; spec/60_exceptions.md R209,
R210). -/

namespace Sys2Proof.Machine

/-! ### The window, the port and the registers -/

theorem inPort_iff (off : BitVec 16) : inPort off = true ↔ 0x8000 ≤ off.toNat :=
  decide_eq_true_iff

theorem inPort_eq_false (off : BitVec 16) (h : off.toNat < 0x8000) : inPort off = false := by
  cases hp : inPort off
  · rfl
  · have := (inPort_iff off).1 hp
    omega

/-- The BUF port admits 8-bit accesses only (R53). -/
theorem admits_of_port (bits : Nat) (off : BitVec 16) (h : 0x8000 ≤ off.toNat) :
    admits bits off = (bits == 8) := by
  rw [admits, if_pos ((inPort_iff off).2 h)]

/-- The registers admit 32-bit accesses at multiples of 4 only (R53). -/
theorem admits_of_register (bits : Nat) (off : BitVec 16) (h : off.toNat < 0x8000) :
    admits bits off = (bits == 32 && off.toNat % 4 == 0) := by
  rw [admits, if_neg (by simp [inPort_eq_false off h])]

/-- The offset that lies `n` bytes from BLOCK_BASE is the one with that number (R52). -/
theorem offsetAt_eq_some_iff (n : Nat) (off : BitVec 16) : offsetAt n = some off ↔ off.toNat = n := by
  have hw : windowSize = 65536 := rfl
  unfold offsetAt
  constructor
  · intro h
    split at h
    · injection h with h
      rw [← h, BitVec.toNat_ofNat]
      omega
    · cases h
  · rintro rfl
    rw [if_pos off.isLt, BitVec.ofNat_toNat, BitVec.setWidth_eq]

/-- Outside the window there is no offset (R52). -/
theorem offsetAt_eq_none_iff (n : Nat) : offsetAt n = none ↔ 65536 ≤ n := by
  simp [offsetAt]

/-- The BUF port's offset of address `a` (R52). -/
theorem portOffset_of_lt (a : Nat) (h : a < 32768) :
    portOffset a = some (BitVec.ofNat 16 (0x8000 + a)) := by
  have hp : portBase = 0x8000 := rfl
  rw [portOffset, offsetAt_eq_some_iff, BitVec.toNat_ofNat]
  omega

/-- Past the window's end a byte address is no offset of the port (R52). -/
theorem portOffset_eq_none_iff (a : Nat) : portOffset a = none ↔ 32768 ≤ a := by
  have hp : portBase = 0x8000 := rfl
  rw [portOffset, offsetAt_eq_none_iff]
  omega

theorem portOffset_toNat (a : Nat) (h : a < 32768) : (BitVec.ofNat 16 (0x8000 + a)).toNat = 0x8000 + a :=
  (offsetAt_eq_some_iff _ _).1 (portOffset_of_lt a h)

/-- `wr8` past the window makes no access to BFX (R52, R96). -/
theorem wr8_eq_none_iff (a : Nat) (v : Byte) : HostAccess.wr8 a v = none ↔ 32768 ≤ a := by
  rw [HostAccess.wr8, Option.map_eq_none_iff, portOffset_eq_none_iff]

/-- `rd8` past the window makes no access to BFX (R52, R96). -/
theorem rd8_eq_none_iff (a : Nat) : HostAccess.rd8 a = none ↔ 32768 ≤ a := by
  rw [HostAccess.rd8, Option.map_eq_none_iff, portOffset_eq_none_iff]

/-- `wr8` of a BUF address makes the 8-bit write at its port offset (R96). -/
theorem wr8_of_lt (a : Nat) (v : Byte) (h : a < 32768) :
    HostAccess.wr8 a v = some (.write 8 (BitVec.ofNat 16 (0x8000 + a)) (v.setWidth 32)) := by
  rw [HostAccess.wr8, portOffset_of_lt a h, Option.map_some]

/-- A load's byte inside the window is one host turn (R97). -/
theorem loadTurns_cons (a : Nat) (v : Byte) (vs : List Byte) (h : a < 32768) :
    loadTurns a (v :: vs) =
      .host (.write 8 (BitVec.ofNat 16 (0x8000 + a)) (v.setWidth 32)) :: loadTurns (a + 1) vs := by
  rw [loadTurns, wr8_of_lt a v h]
  rfl

/-- A load wholly past the window makes no access to BFX (R52, R97). -/
theorem loadTurns_past (a : Nat) (bytes : List Byte) (h : 32768 ≤ a) : loadTurns a bytes = [] := by
  induction bytes generalizing a with
  | nil => rfl
  | cons v vs ih =>
    rw [loadTurns, (wr8_eq_none_iff a v).2 h, ih (a + 1) (by omega)]
    rfl

/-- A byte write of R96 past the window leaves the schedule, and so the block, as it is (R52, R61). -/
theorem wr8_turns_past (a : Nat) (v : Byte) (h : 32768 ≤ a) : (HostOp.wr8 a v).turns = [] := by
  rw [HostOp.wr8, HostOp.turns, (wr8_eq_none_iff a v).2 h]
  rfl

/-- A byte read of R96 past the window is no access to BFX (R52, R61). -/
theorem rd8_turns_past (a : Nat) (h : 32768 ≤ a) : (HostOp.rd8 a).turns = [] := by
  rw [HostOp.rd8, HostOp.turns, (rd8_eq_none_iff a).2 h]
  rfl

theorem portAddress_eq (off : BitVec 16) : portAddress off = off.toNat - 0x8000 := rfl

theorem portAddress_portOffset (a : Nat) (h : a < 32768) :
    portAddress (BitVec.ofNat 16 (0x8000 + a)) = a := by
  rw [portAddress_eq, portOffset_toNat a h]
  omega

/-- The one access allowed while BUSY = 1 (R209). -/
theorem isStatusRead_iff (a : HostAccess) : a.isStatusRead = true ↔ a = .read 32 0x0004#16 := by
  cases a with
  | read bits off => simp [HostAccess.isStatusRead]
  | write bits off v => simp [HostAccess.isStatusRead]

theorem isCmdWrite_iff (a : HostAccess) : a.isCmdWrite = true ↔ ∃ w, a = .write 32 0x0000#16 w := by
  cases a with
  | read bits off => simp [HostAccess.isCmdWrite]
  | write bits off v => simp [HostAccess.isCmdWrite]

/-! ### The host's turn -/

/-- While no command is pending an admitted access is made (R212). -/
theorem hostTurn_idle (a : HostAccess) (s : State) (hb : s.busy = false) (ha : a.admitted = true) :
    hostTurn a s = .next (performAccess a s) := by
  simp [hostTurn, hb, ha]

/-- Everything a host's turn can answer. -/
theorem hostTurn_cases (a : HostAccess) (s : State) :
    (a.admitted = false ∧ hostTurn a s = .refused .accessNotAdmitted) ∨
    (a.admitted = true ∧ s.busy = true ∧ a.isStatusRead = false ∧ hostTurn a s = .fault .hostHazard) ∨
    (a.admitted = true ∧ (s.busy = true → a.isStatusRead = true) ∧
      hostTurn a s = .next (performAccess a s)) := by
  unfold hostTurn
  repeat' split
  all_goals simp_all

/-- A STATUS read is admitted (R53). -/
theorem admitted_of_isStatusRead (a : HostAccess) (h : a.isStatusRead = true) :
    a.admitted = true := by
  cases a with
  | read bits off =>
    simp only [HostAccess.isStatusRead, Bool.and_eq_true, beq_iff_eq] at h
    obtain ⟨rfl, rfl⟩ := h
    decide
  | write bits off v => simp [HostAccess.isStatusRead] at h

/-- Everything an admitted access can do to the state: "Of the host accesses, only these change state:
the CMD write, the BUF port write and the BUF_LEN write" (R61). -/
theorem performAccess_cases (a : HostAccess) (s : State) (h : a.admitted = true) :
    (∃ v, performAccess a s = returnRead v s ∧ a.isCmdWrite = false) ∨
    (performAccess a s = s ∧ a.isCmdWrite = false ∧ a.isStatusRead = false) ∨
    (∃ w, performAccess a s = cmdWrite w s ∧ a.isCmdWrite = true ∧ a.isStatusRead = false) ∨
    (∃ w, performAccess a s = lenWrite w s ∧ a.isCmdWrite = false ∧ a.isStatusRead = false) ∨
    (∃ k v, k < s.bufCap.toNat ∧ performAccess a s = bufWrite k v s ∧ a.isCmdWrite = false ∧
      a.isStatusRead = false) := by
  cases a with
  | read bits off => exact .inl ⟨_, rfl, rfl⟩
  | write bits off v =>
    simp only [HostAccess.admitted, admits] at h
    by_cases hp : inPort off = true
    · rw [if_pos hp, beq_iff_eq] at h
      subst h
      by_cases hk : portAddress off < s.bufCap.toNat
      · exact .inr (.inr (.inr (.inr ⟨_, _, hk, by simp [performAccess, hp, portWrite, hk]; rfl,
          rfl, rfl⟩)))
      · exact .inr (.inl ⟨by simp [performAccess, hp, portWrite, hk], rfl, rfl⟩)
    · rw [if_neg hp, Bool.and_eq_true, beq_iff_eq] at h
      obtain ⟨rfl, -⟩ := h
      by_cases hc : off = offCmd
      · exact .inr (.inr (.inl ⟨v, by simp only [performAccess, if_neg hp, registerWrite, if_pos hc],
          by simp [HostAccess.isCmdWrite, hc], rfl⟩))
      · by_cases hl : off = offBufLen
        · exact .inr (.inr (.inr (.inl ⟨v,
            by simp only [performAccess, if_neg hp, registerWrite, if_neg hc, if_pos hl],
            by simp [HostAccess.isCmdWrite, hc], rfl⟩)))
        · exact .inr (.inl ⟨by simp [performAccess, hp, registerWrite, hc, hl],
            by simp [HostAccess.isCmdWrite, hc], rfl⟩)

/-- An admitted access by its form: a read, one of the two register writes that take effect, a write at
the BUF port, or a write that is ignored. -/
theorem performAccess_forms (a : HostAccess) (s : State) (h : a.admitted = true) :
    (∃ bits off, a = .read bits off ∧ performAccess a s = returnRead (readValue off s) s) ∨
    (∃ w, a = .write 32 0x0000#16 w ∧ performAccess a s = cmdWrite w s) ∨
    (∃ w, a = .write 32 0x0010#16 w ∧ performAccess a s = lenWrite w s) ∨
    (∃ off w, 0x8000 ≤ off.toNat ∧ a = .write 8 off w ∧ performAccess a s = portWrite off w s) ∨
    (∃ off w, a = .write 32 off w ∧ off.toNat < 0x8000 ∧ off ≠ offCmd ∧ off ≠ offBufLen ∧
      performAccess a s = s) := by
  cases a with
  | read bits off => exact .inl ⟨bits, off, rfl, rfl⟩
  | write bits off v =>
    by_cases hp : 0x8000 ≤ off.toNat
    · rw [HostAccess.admitted, admits_of_port bits off hp, beq_iff_eq] at h
      subst h
      exact .inr (.inr (.inr (.inl ⟨off, v, hp, rfl, by
        rw [performAccess, if_pos ((inPort_iff off).2 hp)]⟩)))
    · have hlt : off.toNat < 0x8000 := by omega
      have hp' : ¬ inPort off = true := by simp [inPort_eq_false off hlt]
      rw [HostAccess.admitted, admits_of_register bits off hlt, Bool.and_eq_true, beq_iff_eq] at h
      obtain ⟨rfl, -⟩ := h
      by_cases hc : off = offCmd
      · subst hc
        exact .inr (.inl ⟨v, rfl, rfl⟩)
      · by_cases hl : off = offBufLen
        · subst hl
          exact .inr (.inr (.inl ⟨v, rfl, rfl⟩))
        · exact .inr (.inr (.inr (.inr ⟨off, v, rfl, hlt, hc, hl, by
            rw [performAccess, if_neg hp', registerWrite, if_neg hc, if_neg hl]⟩)))

/-- A STATUS read returns the STATUS word and changes nothing (R58). -/
theorem performAccess_statusRead (a : HostAccess) (s : State) (h : a.isStatusRead = true) :
    performAccess a s = returnRead (.word (statusWord s)) s := by
  cases a with
  | read bits off =>
    simp only [HostAccess.isStatusRead, Bool.and_eq_true, beq_iff_eq] at h
    obtain ⟨-, rfl⟩ := h
    have hp : inPort offStatus = false := by decide
    simp [performAccess, readValue, hp, registerValue]
  | write bits off v => simp [HostAccess.isStatusRead] at h

end Sys2Proof.Machine
end

