-- ==== Sys2Proof/Laws/PerInstr.lean ====
section
/-! SUPPORT. A statement about every instruction as syntax, one lemma a constructor: the OP field of an
encoded command is its opcode (spec/30_encoding.md R80, R89). -/

namespace Sys2Proof.Laws.EncodedOp

/-- "The opcode field OP is W[31:28] in every format" (R80). -/
def Statement (i : Instr) : Prop := i.wf = true → opField (encode i) = i.op

theorem rdbits (o b n : Nat) : Statement (.rdbits o b n) := by
  intro h
  rw [wf_rdbits_iff] at h
  rw [opField, wordField_eq, encode_rdbits_toNat o b n h.1 h.2.1 h.2.2]
  simp only [Instr.op]
  omega

theorem rdbyte (o : Nat) : Statement (.rdbyte o) := by
  intro h
  rw [wf_rdbyte_iff] at h
  rw [opField, wordField_eq, encode_rdbyte_toNat o h]
  simp only [Instr.op]
  omega

theorem rdbytes (o n : Nat) : Statement (.rdbytes o n) := by
  intro h
  rw [wf_rdbytes_iff] at h
  rw [opField, wordField_eq, encode_rdbytes_toNat o n h.1 h.2]
  simp only [Instr.op]
  omega

theorem cksum (k : Nat) : Statement (.cksum k) := by
  intro h
  rw [wf_cksum_iff] at h
  rw [opField, wordField_eq, encode_cksum_toNat k h]
  simp only [Instr.op]
  omega

theorem vroot : Statement .vroot := by
  intro _
  decide

theorem cldesc (k : Nat) : Statement (.cldesc k) := by
  intro h
  rw [wf_cldesc_iff] at h
  rw [opField, wordField_eq, encode_cldesc_toNat k h]
  simp only [Instr.op]
  omega

theorem clext (k : Nat) : Statement (.clext k) := by
  intro h
  rw [wf_clext_iff] at h
  rw [opField, wordField_eq, encode_clext_toNat k h]
  simp only [Instr.op]
  omega

end Sys2Proof.Laws.EncodedOp
end

