-- ==== Sys2Proof/Laws/Step.lean ====
section
/-! SUPPORT. What a step can do, said once: every invariant of the machine is derived from `step_cases`. -/

namespace Sys2Proof.Machine

theorem turnTaken_of_nil (s : State) (h : s.schedule = []) : s.turnTaken = s := by
  obtain ⟨⟩ := s
  simp_all [State.turnTaken]

/-- The engine moves next: its turn is scheduled, or nothing is (R239). -/
abbrev State.engineNext (s : State) : Prop :=
  s.schedule = [] ∨ s.schedule.head? = some .engine

theorem step_engineNext (s : State) (h : s.engineNext) : step s = engineTurn s.turnTaken := by
  rcases h with h | h
  · rw [turnTaken_of_nil s h]
    simp [step, h]
  · cases hs : s.schedule with
    | nil => simp [hs] at h
    | cons t ts =>
      simp only [hs, List.head?_cons, Option.some.injEq] at h
      subst h
      simp [step, hs]

theorem step_host (s : State) (a : HostAccess) (h : s.schedule.head? = some (.host a)) :
    step s = hostTurn a s.turnTaken := by
  cases hs : s.schedule with
  | nil => simp [hs] at h
  | cons t ts =>
    simp only [hs, List.head?_cons, Option.some.injEq] at h
    subst h
    simp [step, hs]

theorem step_reset (s : State) (h : s.schedule.head? = some .reset) :
    step s = .next (resetEvent s.turnTaken) := by
  cases hs : s.schedule with
  | nil => simp [hs] at h
  | cons t ts =>
    simp only [hs, List.head?_cons, Option.some.injEq] at h
    subst h
    simp [step, hs]

/-- Who moves next. -/
theorem next_turn (s : State) :
    s.engineNext ∨ s.schedule.head? = some .reset ∨ ∃ a, s.schedule.head? = some (.host a) := by
  cases hs : s.schedule with
  | nil => exact .inl (.inl hs)
  | cons t ts =>
    cases t with
    | reset => simp
    | engine => exact .inl (.inr (by simp [hs]))
    | host a => simp

/-- Everything a step that answers a next state has done. -/
theorem step_cases {s t : State} (h : step s = .next t) :
    (s.schedule.head? = some .reset ∧ t = resetEvent s.turnTaken) ∨
    (s.engineNext ∧ s.busy = false ∧ t = s.turnTaken) ∨
    (s.engineNext ∧ s.busy = true ∧ (∃ e, decode s.pending = .error e) ∧
      t = raiseError .illegal s.turnTaken) ∨
    (s.engineNext ∧ s.busy = true ∧ ∃ i, decode s.pending = .ok i ∧ exec i s.turnTaken = .next t) ∨
    (∃ a, s.schedule.head? = some (.host a) ∧ a.admitted = true ∧
      (s.busy = true → a.isStatusRead = true) ∧ t = performAccess a s.turnTaken) := by
  rcases next_turn s with he | hr | ⟨a, ha⟩
  · rw [step_engineNext s he, engineTurn] at h
    split at h
    · rename_i hb
      rw [executePending] at h
      split at h
      · rename_i i hi
        exact .inr (.inr (.inr (.inl ⟨he, hb, i, hi, h⟩)))
      · rename_i e hd
        exact .inr (.inr (.inl ⟨he, hb, ⟨e, hd⟩, by simpa using h.symm⟩))
    · rename_i hb
      exact .inr (.inl ⟨he, by simpa using hb, by simpa using h.symm⟩)
  · rw [step_reset s hr] at h
    exact .inl ⟨hr, by simpa using h.symm⟩
  · rw [step_host s a ha] at h
    rcases hostTurn_cases a s.turnTaken with ⟨-, h'⟩ | ⟨-, -, -, h'⟩ | ⟨h1, h2, h'⟩
    · simp [h'] at h
    · simp [h'] at h
    · rw [h'] at h
      exact .inr (.inr (.inr (.inr ⟨a, ha, h1, h2, by simpa using h.symm⟩)))

/-! ### The end of a run and what is observed (R240) -/

/-- A run has ended exactly when no host turn is left and no command is pending. -/
theorem finished_iff (s : State) :
    s.finished = true ↔ (∀ a, Turn.host a ∉ s.schedule) ∧ s.busy = false := by
  have hosts : s.schedule.all (fun t => !t.isHost) = true ↔ ∀ a, Turn.host a ∉ s.schedule := by
    rw [List.all_eq_true]
    constructor
    · exact fun h a ha => absurd (h _ ha) Bool.false_ne_true
    · rintro h (_ | _ | a) ht
      · rfl
      · rfl
      · exact absurd ht (h a)
  rw [State.finished, Bool.and_eq_true, hosts, Bool.not_eq_true']

/-- A state with no turn left and no command pending has ended its run. -/
theorem finished_of_nil {s : State} (h : s.schedule = []) (hb : s.busy = false) : s.finished = true :=
  (finished_iff s).2 ⟨fun a => by simp [h], hb⟩

@[simp] theorem observe_status (s : State) : s.observe.status = statusWord s := rfl
@[simp] theorem observe_result (s : State) : s.observe.result = s.result := rfl
@[simp] theorem observe_bufLen (s : State) : s.observe.bufLen = s.bufLen := rfl
@[simp] theorem observe_buf (s : State) : s.observe.buf = s.bufBytes := rfl
@[simp] theorem observe_hostReads (s : State) : s.observe.hostReads = s.hostReads := rfl

/-- BUF is observed whole: BUF_CAP bytes (R36). -/
theorem bufBytes_length (s : State) : s.bufBytes.length = s.bufCap.toNat := by simp [State.bufBytes]

/-- The observed byte at `a` is the stored byte. -/
theorem bufBytes_getElem (s : State) (a : Nat) (h : a < s.bufBytes.length) :
    s.bufBytes[a] = rawByte s a := by simp [State.bufBytes]

/-- Two states of one capacity observe one BUF exactly when their stored bytes below it agree. -/
theorem bufBytes_eq_iff {s t : State} (hc : t.bufCap = s.bufCap) :
    t.bufBytes = s.bufBytes ↔ ∀ a, a < s.bufCap.toNat → rawByte t a = rawByte s a := by
  simp [State.bufBytes, hc]

/-! ### Runs -/

/-- What one step is in a run. -/
theorem runFrom_zero (s : State) : runFrom 0 s = .next s := rfl

theorem runFrom_succ_next (k : Nat) (s t : State) (h : step s = .next t) :
    runFrom (k + 1) s = runFrom k t := by
  have h' : core.step s = .next t := h
  simp only [runFrom, Host.Core.run, h']
  rfl

theorem runFrom_succ_fault (k : Nat) (s : State) (r : Fault) (h : step s = .fault r) :
    runFrom (k + 1) s = .fault r := by
  have h' : core.step s = .fault r := h
  simp only [runFrom, Host.Core.run, h']
  rfl

theorem runFrom_succ_refused (k : Nat) (s : State) (r : Refusal) (h : step s = .refused r) :
    runFrom (k + 1) s = .refused r := by
  have h' : core.step s = .refused r := h
  simp only [runFrom, Host.Core.run, h']
  rfl

end Sys2Proof.Machine
end

