-- ==== Sys2Proof/Tests/Slice0.lean ====
section
/-! SUPPORT. Tests of the model against the spec's own words and vectors (spec/30_encoding.md R98,
spec/95_test_vectors.md), and for every statement with hypotheses a named witness that meets them. -/

namespace Sys2Proof.Tests

open Sys2Proof Sys2Proof.Machine

/-! ### The assembler's checks (R95) -/

theorem test_wf_refuses_byteoff : (Instr.rdbyte 65536).wf = false := by decide
theorem test_wf_refuses_bitoff : (Instr.rdbits 0 16 1).wf = false := by decide
theorem test_wf_refuses_count : (Instr.rdbits 0 0 128).wf = false := by decide
theorem test_wf_refuses_nbytes : (Instr.rdbytes 0 16).wf = false := by decide
theorem test_wf_refuses_blk : (Instr.cksum 256).wf = false := by decide
theorem test_wf_refuses_xidx : (Instr.clext 256).wf = false := by decide
theorem test_wf_refuses_slot : (Instr.cldesc 4).wf = false := by decide
/-- "It accepts an operand that fits its field but lies outside EDP's domain" (R95). -/
theorem test_wf_accepts_outside_domain : (Instr.rdbits 0 8 1).wf = true := by decide
theorem test_assembler_refuses : assemble (.cldesc 4) = none := by decide

/-! ### Words written out from R82 to R87 -/

/-- OP 0001, reserved 0, COUNT 0000001, BITOFF 0111, BYTEOFF 20. -/
theorem test_decode_rdbits :
    decode 0b0001_0_0000001_0111_0000000000010100#32 = .ok (.rdbits 20 7 1) := by decide
/-- OP 0010, twelve zeros, BYTEOFF 126. -/
theorem test_decode_rdbyte :
    decode 0b0010_000000000000_0000000001111110#32 = .ok (.rdbyte 126) := by decide
/-- OP 0011, eight zeros, NBYTES 0101, BYTEOFF 90. -/
theorem test_decode_rdbytes :
    decode 0b0011_00000000_0101_0000000001011010#32 = .ok (.rdbytes 90 5) := by decide
/-- OP 0100, twenty zeros, BLK 200. -/
theorem test_decode_cksum :
    decode 0b0100_00000000000000000000_11001000#32 = .ok (.cksum 200) := by decide
/-- OP 0101 and zeros. -/
theorem test_decode_vroot :
    decode 0b0101_0000000000000000000000000000#32 = .ok .vroot := by decide
/-- OP 0110, twenty-six zeros, SLOT 10. -/
theorem test_decode_cldesc :
    decode 0b0110_00000000000000000000000000_10#32 = .ok (.cldesc 2) := by decide
/-- OP 0111, twenty zeros, XIDX 1. -/
theorem test_decode_clext :
    decode 0b0111_00000000000000000000_00000001#32 = .ok (.clext 1) := by decide

/-- The illegal words of 95_test_vectors.md section 2.6 with an undefined OP. -/
theorem test_decode_illegal_opcodes :
    [0x00000000#32, 0x80000000#32, 0xF0000000#32].map decode =
      List.replicate 3 (.error .illegalOpcode) := by decide
/-- The illegal words of 95_test_vectors.md section 2.6 with a reserved bit set. -/
theorem test_decode_reserved_bits :
    [0x50000001#32, 0x18000000#32, 0x20010000#32, 0x30100000#32, 0x40000100#32, 0x60000004#32,
      0x70000100#32].map decode = List.replicate 7 (.error .reservedBitSet) := by decide

/-- The words R98 gives for assembler text. -/
theorem test_encode_examples :
    [Instr.rdu16 10, .rdu32 12, .rdu64 0, .rdflag 20 7, .rdbits 0 8 1, .rdbyte 126, .rdbytes 90 5,
      .cksum 1, .vroot, .cldesc 3, .clext 1].map encode =
      [0x1100000A#32, 0x1200000C#32, 0x14000000#32, 0x10170014#32, 0x10180000#32, 0x2000007E#32,
        0x3005005A#32, 0x40000001#32, 0x50000000#32, 0x60000003#32, 0x70000001#32] := by decide

theorem test_table_word_decodes : decodeTableWord 32 0x60000002 = some (.cldesc 2) := by decide
theorem test_table_word_refused : decodeTableWord 32 0x60000004 = none := by decide

/-! ### The sample buffer S of 95_test_vectors.md section 0 -/

/-- The sixteen bytes of one row, the first the most significant. -/
def rowBytes (w : BitVec 128) : List Byte := (List.range 16).map fun k => w.extractLsb' (8 * (15 - k)) 8

/-- The root block of S. -/
def rootBytes : List Byte :=
  [0x00FFFFFFFFFFFF0010AC341278563412#128, 0x011E010380351E780AEE91A3544C9926#128,
   0x0F5054210800013FD1C0010101010101#128, 0x010101010101023A801871382D40582C#128,
   0x45000F282100001E000000FD00384C1E#128, 0x5311000A202020202020000000FC0054#128,
   0x6573744D6F6E69746F720A20000000FF#128, 0x00534E303030310A202020202020016E#128].flatMap rowBytes

/-- Extension block 1 of S. -/
def extBytes : List Byte := [0x02#8, 0x03#8] ++ List.replicate 125 0x00#8 ++ [0xFB#8]

/-- The cells of bytes standing one after another from address `a`. -/
def cellsFrom : Nat → List Byte → Memory
  | _, [] => []
  | a, v :: vs => (a, v) :: cellsFrom (a + 1) vs

/-- S loaded and its length set, the block idle. -/
def loaded : State := { State.reset with buf := cellsFrom 0 (rootBytes ++ extBytes), bufLen := 256#16 }

/-- S with the bytes named by `edits` replaced. -/
def edited (edits : List (Nat × Byte)) : State :=
  { loaded with buf := edits.foldl (fun m e => Memory.store m e.1 e.2) loaded.buf }

/-- `loaded` with the record of S latched, as VROOT leaves it. -/
def rooted : State :=
  { loaded with done := true, rootOk := true, extCnt := 1#8, result := 0x10301#64 }

/-- A command begun over `s` by the host's CMD write of its word. -/
def begun (i : Instr) (s : State) : State := cmdWrite (encode i) s

/-- STATUS and RESULT after one step, as the tables of 95_test_vectors.md list them. -/
def shows (o : Host.Outcome State Fault Refusal) : Option (Word × DWord) :=
  match o with
  | .next t => some (statusWord t, t.result)
  | _ => none

/-! ### One step, against 95_test_vectors.md sections 2.1 to 2.6 -/

/-- The field crosses bytes 8 and 9. -/
theorem test_rdbits_crosses_bytes :
    shows (step (begun (.rdbits 8 4 8) rooted)) = some (0x00010102#32, 0xC1#64) := by decide +kernel
/-- `b + n = 71`: the top 7 bits are 0. -/
theorem test_rdbits_window_end :
    shows (step (begun (.rdbits 0 7 64) rooted)) =
      some (0x00010102#32, 0x0001FFFFFFFFFFFE#64) := by decide +kernel
theorem test_rdbyte_last :
    shows (step (begun (.rdbyte 255) rooted)) = some (0x00010102#32, 0xFB#64) := by decide +kernel
theorem test_rdbyte_at_buf_len :
    shows (step (begun (.rdbyte 256) rooted)) = some (0x00010102#32, 0#64) := by decide +kernel
/-- "TestMoni", the first byte lowest. -/
theorem test_rdbytes_string :
    shows (step (begun (.rdbytes 95 8) rooted)) =
      some (0x00010102#32, 0x696E6F4D74736554#64) := by decide +kernel
theorem test_rdbytes_nine :
    shows (step (begun (.rdbytes 0 9) rooted)) = some (0x00010126#32, 0x10301#64) := by decide +kernel
/-- A wrong sum is reported, not judged. -/
theorem test_cksum_wrong_sum :
    shows (step (begun (.cksum 0) (edited [(127, 0x6F#8)]))) = some (0x00000002#32, 1#64) := by
  decide +kernel
theorem test_cksum_past_end :
    shows (step (begun (.cksum 2) loaded)) = some (0x00000086#32, 0#64) := by decide +kernel
theorem test_vroot_valid :
    shows (step (begun .vroot loaded)) = some (0x00010102#32, 0x10301#64) := by decide +kernel
/-- A second VROOT over a broken checksum withdraws the record and leaves RESULT. -/
theorem test_vroot_withdraws :
    shows (step (begun .vroot (bufWrite 127 0x6F#8 rooted))) = some (0x00000056#32, 0x10301#64) := by
  decide +kernel
theorem test_cldesc_monitor_name :
    shows (step (begun (.cldesc 2) rooted)) = some (0x00010102#32, 0x5AFC15#64) := by decide +kernel
/-- Header `00 00 00 10 00`: just above the manufacturer codes. -/
theorem test_cldesc_no_match :
    shows (step (begun (.cldesc 0) { rooted with buf := (edited [(54, 0x00#8), (55, 0x00#8),
      (56, 0x00#8), (57, 0x10#8), (58, 0x00#8)]).buf })) = some (0x00010102#32, 0x361000#64) := by
  decide +kernel
theorem test_clext_unknown :
    shows (step (begun (.clext 1) rooted)) =
      some (0x00010102#32, 0x0000008000030202#64) := by decide +kernel
/-- Block 1 = `F0` and zeros has sum 0xF0: an error, not a BlockMap. -/
theorem test_clext_bad_sum :
    shows (step (begun (.clext 1) { rooted with buf := (edited [(128, 0xF0#8), (129, 0x00#8),
      (255, 0x00#8)]).buf })) = some (0x00010196#32, 0x10301#64) := by decide +kernel
theorem test_illegal_word :
    shows (step (cmdWrite 0x60000004#32 rooted)) = some (0x00010116#32, 0x10301#64) := by
  decide +kernel

/-! ### The host window, against 95_test_vectors.md section 2.7 -/

/-- What one access returns from the reset state. -/
def returned (a : HostAccess) : Option (List ReadValue) :=
  match hostTurn a State.reset with
  | .next t => some t.hostReads
  | _ => none

theorem test_reads_after_reset :
    [0x0004#16, 0x0014#16, 0x0000#16, 0x0018#16].map (fun off => returned (.rd32 off)) =
      [some [.word 0#32], some [.word 0x8000#32], some [.word 0#32], some [.word 0#32]] := by decide
/-- `wr32 0x010, 40000` then `rd32 0x010` gives 0x8000. -/
theorem test_buf_len_clamps :
    shows (hostTurn (.rd32 offBufLen) (lenWrite 40000#32 State.reset)) = some (0#32, 0#64) ∧
    registerValue offBufLen (lenWrite 40000#32 State.reset) = 0x8000#32 := by decide
/-- `wr8 5, 0xAA` then `rd8 5` gives 0xAA. -/
theorem test_buf_write_read : portValue 0x8005#16 (bufWrite 5 0xAA#8 State.reset) = 0xAA#8 := by
  decide
theorem test_result_read_while_busy_is_hazard :
    hostTurn (.rd32 offResultLo) (begun .vroot State.reset) = .fault .hostHazard := by rfl
theorem test_half_word_read_is_refused :
    hostTurn (.read 16 offStatus) State.reset = .refused .accessNotAdmitted := by rfl
theorem test_word_write_at_port_is_refused :
    hostTurn (.write 32 0x8000#16 0#32) State.reset = .refused .accessNotAdmitted := by rfl

/-- Byte operations at both ends of the BUF port, and past the window, where BFX sees no access (R52, R96). -/
theorem test_byte_operations :
    hostProgram [.wr8 0 0xAA#8, .rd8 32767, .wr8 32768 0xAA#8, .rd8 65536, .wr32 65536 0#32] =
      some [.host (.write 8 0x8000#16 0xAA#32), .host (.read 8 0xFFFF#16)] := by decide

/-- The host program `exec VROOT; result` as turns. -/
theorem test_host_program :
    hostProgram [.exec .vroot 0, .result] =
      some [.host (.write 32 0x0000#16 0x50000000#32), .engine, .host (.read 32 0x0004#16),
        .host (.read 32 0x0008#16), .host (.read 32 0x000C#16)] := by decide

/-- The two orders of 95_test_vectors.md P6: the engine's step before the read, or none before it. -/
theorem test_bare_cmd_orders :
    hostProgram [.cmd (.cldesc 0), .engineStep, .status] =
      some [.host (.write 32 0x0000#16 0x60000000#32), .engine, .host (.read 32 0x0004#16)] ∧
    hostProgram [.cmd (.cldesc 0), .status] =
      some [.host (.write 32 0x0000#16 0x60000000#32), .host (.read 32 0x0004#16)] := by decide

/-- A run has ended with idle engine and reset turns left, and not with a host turn left or a command
pending (R240). -/
theorem test_end_of_run :
    ({ State.reset with schedule := [.engine, .reset] } : State).finished = true ∧
      ({ State.reset with schedule := [.engine, .host (.rd32 offStatus)] } : State).finished = false ∧
      (begun .vroot State.reset).finished = false := by decide

/-- A written byte of BUF is part of the observed outcome (R240). -/
theorem test_buf_is_observed :
    ({ State.reset with bufCap := 128#32, buf := [(5, 0xAA#8)] } : State).observe.buf[5]? = some 0xAA#8 := by
  decide +kernel

/-- E_RANGE of CKSUM has no EDP kind, E_RANGE of CLEXT is InvalidExtension (R204). -/
theorem test_edp_kinds :
    edpKind (.cksum 1) .range = none ∧ edpKind (.clext 1) .range = some .invalidExtension := by decide

/-! ### Witnesses: states and operands that meet the hypotheses of each statement -/

/-- `s` with turns still to come. -/
def due (ts : List Turn) (s : State) : State := { s with schedule := ts }

theorem witness_decode_of_encode :
    Instr.wf (.rdbits 65535 15 127) = true ∧ Instr.wf (.rdbits 0 0 0) = true ∧
    Instr.wf (.rdbyte 65535) = true ∧ Instr.wf (.rdbytes 65535 15) = true ∧
    Instr.wf (.cksum 255) = true ∧ Instr.wf .vroot = true ∧ Instr.wf (.cldesc 3) = true ∧
    Instr.wf (.clext 255) = true := by decide

theorem witness_encode_of_decode :
    decode 0x17FFFFFF#32 = .ok (.rdbits 65535 15 127) ∧ decode 0x700000FF#32 = .ok (.clext 255) := by
  decide

theorem witness_decoder_rejects :
    illegalOpcode 0x0FFFFFFF#32 ∧ illegalOpcode 0x80000000#32 ∧ reservedBitSet 0x50000001#32 ∧
      reservedBitSet 0x7FFFFF00#32 := by
  unfold illegalOpcode reservedBitSet; decide

theorem witness_step_runs_the_decoded_command :
    (begun (.cksum 1) loaded).busy = true ∧ decode (begun (.cksum 1) loaded).pending = .ok (.cksum 1) ∧
      (begun (.cksum 1) loaded).schedule = [] ∧
      (due [.engine] (begun (.cksum 1) loaded)).schedule = .engine :: [] :=
  ⟨rfl, by decide, rfl, rfl⟩

theorem witness_step_takes_the_scheduled_turn :
    (due [.host (.rd32 offStatus)] State.reset).schedule = .host (.rd32 offStatus) :: [] ∧
      (due [.engine] State.reset).busy = false ∧
      (due [.engine] State.reset).schedule = .engine :: [] ∧ State.reset.schedule = [] := by decide

theorem witness_placed_word :
    0x14000000 < 2 ^ 32 ∧ decodeTableWord 32 0x14000000 = some (.rdbits 0 0 64) := by decide

/-- For IllegalWordChangesOnlyStatus and the engine's clause of CommandsWriteOnlyStatusAndResult. -/
theorem witness_illegal_word :
    (cmdWrite 0#32 State.reset).busy = true ∧ illegalOpcode (cmdWrite 0#32 State.reset).pending ∧
      reservedBitSet (cmdWrite 0x50000001#32 State.reset).pending := by
  unfold illegalOpcode reservedBitSet; decide

theorem witness_padding : 255 < loaded.bufLen.toNat ∧ loaded.bufLen.toNat ≤ 256 := by decide

theorem witness_rdbits_domain : 7 ≤ 7 ∧ 1 ≤ 1 ∧ 1 ≤ 64 ∧ 64 ≤ 64 ∧ 63 < 64 := by decide

theorem witness_operands_out_of_range :
    (8 ≤ 8 ∨ 1 = 0 ∨ 65 ≤ 1) ∧ (8 ≤ 0 ∨ 0 = 0 ∨ 65 ≤ 0) ∧ (8 ≤ 0 ∨ 65 = 0 ∨ 65 ≤ 65) ∧ 9 ≤ 9 ∧
      State.reset.bufLen.toNat < 128 * 0 + 128 ∧ loaded.bufLen.toNat < 128 * 2 + 128 := by decide

theorem witness_rdbytes_domain : 0 ≤ 8 ∧ 8 ≤ 8 ∧ 7 < 8 ∧ 8 * 8 ≤ 64 := by decide

theorem witness_specialisation_laws :
    1 ≤ 8 ∧ 8 ≤ 8 ∧ 7 ≤ 7 ∧ 1 ≤ 63 ∧ 63 < 64 ∧ 7 + 1 ≤ 8 ∧ 0 + 8 ≤ 8 := by decide

/-- The window's clause on bits above it, and two states that agree on the window's bytes only. -/
theorem witness_window :
    7 ≤ 7 ∧ 64 ≤ 64 ∧ 64 ≤ 7 + 57 ∧
      (∀ k, k < 8 → paddedByte (edited [(8, 0#8)]) (0 + k) = paddedByte loaded (0 + k)) := by
  decide +kernel

theorem witness_normalised : 1 ≤ 64 ∧ 8 % 8 + 64 ≤ 64 ∧ 15 % 8 + 57 ≤ 64 := by decide

theorem witness_cksum : 128 * 1 + 128 ≤ loaded.bufLen.toNat := by decide

theorem witness_sum_order : (List.range 128).reverse.Perm (List.range 128) := List.reverse_perm _

theorem witness_vroot_valid :
    128 ≤ loaded.bufLen.toNat ∧ magicStands loaded ∧ blockTotal loaded 0 % 256 = 0 ∧
      versionStands loaded := by
  unfold magicStands versionStands; decide +kernel

/-- One state for each failing check, at the boundary the check names. -/
theorem witness_vroot_short : ({ loaded with bufLen := 127#16 } : State).bufLen.toNat < 128 := by decide

theorem witness_vroot_magic :
    128 ≤ (edited [(3, 0x00#8)]).bufLen.toNat ∧ ¬magicStands (edited [(3, 0x00#8)]) := by
  unfold magicStands; decide +kernel

theorem witness_vroot_checksum :
    128 ≤ (edited [(127, 0x6F#8)]).bufLen.toNat ∧ magicStands (edited [(127, 0x6F#8)]) ∧
      blockTotal (edited [(127, 0x6F#8)]) 0 % 256 ≠ 0 := by
  unfold magicStands; decide +kernel

theorem witness_vroot_version :
    128 ≤ (edited [(19, 0x00#8), (127, 0x71#8)]).bufLen.toNat ∧
      magicStands (edited [(19, 0x00#8), (127, 0x71#8)]) ∧
      blockTotal (edited [(19, 0x00#8), (127, 0x71#8)]) 0 % 256 = 0 ∧
      ¬versionStands (edited [(19, 0x00#8), (127, 0x71#8)]) := by
  unfold magicStands versionStands; decide +kernel

theorem witness_idempotent :
    exec (.rdbytes 0 9) (cmdWrite 0#32 rooted) = .next (raiseError .domain (cmdWrite 0#32 rooted)) := rfl

theorem witness_cldesc_no_root : loaded.rootOk = false := rfl

theorem witness_cldesc : 0 < 4 ∧ 3 < 4 ∧ rooted.rootOk = true := by decide

theorem witness_validator_order : variantRules.reverse.Perm variantRules := List.reverse_perm _

theorem witness_clext_failures :
    loaded.rootOk = false ∧ rooted.rootOk = true ∧ (0 = 0 ∨ rooted.extCnt.toNat < 0) ∧
      (2 = 0 ∨ rooted.extCnt.toNat < 2) ∧ 1 ≤ rooted.extCnt.toNat ∧
      ({ rooted with bufLen := 255#16 } : State).bufLen.toNat < 128 * 1 + 128 := by decide

theorem witness_clext_bad_sum :
    ({ rooted with buf := (edited [(255, 0#8)]).buf } : State).rootOk = true ∧
      1 ≤ ({ rooted with buf := (edited [(255, 0#8)]).buf } : State).extCnt.toNat ∧
      128 * 1 + 128 ≤ ({ rooted with buf := (edited [(255, 0#8)]).buf } : State).bufLen.toNat ∧
      blockTotal { rooted with buf := (edited [(255, 0#8)]).buf } (128 * 1) % 256 ≠ 0 := by
  decide +kernel

theorem witness_clext :
    rooted.rootOk = true ∧ 1 ≤ 1 ∧ 1 ≤ rooted.extCnt.toNat ∧
      128 * 1 + 128 ≤ rooted.bufLen.toNat ∧ blockTotal rooted (128 * 1) % 256 = 0 := by decide +kernel

theorem witness_only_vroot :
    Instr.cksum 2 ≠ .vroot ∧ exec (.cksum 2) rooted = .next (raiseError .range rooted) :=
  ⟨by decide, rfl⟩

theorem witness_precise_errors :
    (begun (.cldesc 0) loaded).busy = true ∧ (begun (.cldesc 0) loaded).err = false ∧
      engineTurn (begun (.cldesc 0) loaded) = .next (raiseError .noRoot (begun (.cldesc 0) loaded)) ∧
      decode (begun (.cldesc 0) loaded).pending ≠ .ok .vroot ∧
      engineTurn (begun .vroot State.reset) =
        .next (raiseError .rootShort (clearRoot (begun .vroot State.reset))) ∧
      decode (begun .vroot State.reset).pending = .ok .vroot :=
  ⟨rfl, rfl, by rfl, by decide, by rfl, by decide⟩

/-- For CmdWriteBeginsACommand, BufferWriteStoresOneByte, BufLenWriteClamps, RegisterReadsReturnTheRegisters
and PortReadReturnsTheStoredByte: no command pending, over the largest and the smallest capacity. -/
theorem witness_idle_port :
    State.reset.busy = false ∧ 0 < State.reset.bufCap.toNat ∧ 32767 < State.reset.bufCap.toNat ∧
      State.reset.bufCap.toNat ≤ 32768 ∧ State.reset.bufLen.toNat ≤ 0 ∧
      ({ State.reset with bufCap := 128#32 } : State).bufCap.toNat ≤ 32768 ∧
      127 < ({ State.reset with bufCap := 128#32 } : State).bufCap.toNat ∧
      Memory.lookup State.reset.buf 0 = none := by decide

theorem witness_reserved_offsets :
    State.reset.busy = false ∧ 0x0018 ≤ (0x0018#16).toNat ∧ (0x0018#16).toNat < 0x8000 ∧
      (0x0018#16).toNat % 4 = 0 ∧ 0x0018 ≤ (0x7FFC#16).toNat ∧ (0x7FFC#16).toNat < 0x8000 ∧
      (0x7FFC#16).toNat % 4 = 0 ∧
      0x8000 + ({ State.reset with bufCap := 128#32 } : State).bufCap.toNat ≤ (0x8080#16).toNat ∧
      0x8000 + ({ State.reset with bufCap := 128#32 } : State).bufCap.toNat ≤ (0xFFFF#16).toNat := by
  decide

theorem witness_hazard :
    (begun .vroot State.reset).busy = true ∧ (HostAccess.rd32 offResultLo).admitted = true ∧
      HostAccess.rd32 offResultLo ≠ .read 32 0x0004#16 := by decide

theorem witness_refusal :
    ¬(((0x0004#16).toNat < 0x8000 ∧ 16 = 32 ∧ (0x0004#16).toNat % 4 = 0) ∨
      (0x8000 ≤ (0x0004#16).toNat ∧ 16 = 8)) := by decide

/-- For OnlyThreeAccessesChangeState. -/
theorem witness_harmless_access :
    hostTurn (.rd32 offStatus) State.reset = .next (returnRead (.word 0#32) State.reset) ∧
      (∀ w, HostAccess.rd32 offStatus ≠ .write 32 0x0000#16 w) ∧
      (∀ w, HostAccess.rd32 offStatus ≠ .write 32 0x0010#16 w) ∧
      (∀ (off : BitVec 16) (w : Word), 0x8000 ≤ off.toNat →
        HostAccess.rd32 offStatus ≠ .write 8 off w) :=
  ⟨by rfl, fun _ => HostAccess.noConfusion, fun _ => HostAccess.noConfusion,
    fun _ _ _ => HostAccess.noConfusion⟩

theorem witness_window_address :
    windowOffset (Config.blockBase + 65535) = some 0xFFFF#16 ∧ windowOffset Config.blockBase = some 0#16 := by
  constructor
  · simp [windowOffset, offsetAt]
  · simp [windowOffset, offsetAt]

theorem witness_buffer_change :
    (∃ t, t = bufWrite 200 0x00#8 rooted) ∧ ∃ t, t = lenWrite 128#32 rooted := ⟨⟨_, rfl⟩, ⟨_, rfl⟩⟩

theorem witness_reset_turn : (due [.reset] (begun .vroot loaded)).schedule = .reset :: [] := rfl

/-- The step goes on, to a state with property `p`. -/
def goesOn (s : State) (p : State → Bool) : Bool :=
  match step s with
  | .next t => p t
  | _ => false

theorem goesOn_next {s : State} {p : State → Bool} (h : goesOn s p = true) :
    ∃ t, step s = .next t ∧ p t = true := by
  unfold goesOn at h
  split at h
  · exact ⟨_, ‹_›, h⟩
  · exact absurd h Bool.false_ne_true

/-- The invariants hold, and a step goes on, with a command pending over a latched record. -/
theorem witness_invariant_busy : (begun (.cldesc 2) rooted).Inv where
  busy_clean := by decide
  err_iff := by decide
  err_done := by decide
  ecode_le := by decide
  no_root := by decide
  root := by decide +kernel
  len_le := by decide
  cap_range := by decide
  buf_wf := by decide +kernel
  buf_within := by decide +kernel

theorem witness_invariant_step :
    ∃ t, step (begun (.cldesc 2) rooted) = .next t ∧ (t.result == 0x5AFC15#64) = true :=
  goesOn_next (by decide +kernel)

/-- ROOT_OK rises. -/
theorem witness_root_rises :
    loaded.rootOk = false ∧ ∃ t, step (begun .vroot loaded) = .next t ∧ t.rootOk = true :=
  ⟨rfl, goesOn_next (p := fun t => t.rootOk) (by decide +kernel)⟩

/-- ROOT_OK falls at each of its four events. -/
theorem witness_root_falls :
    (∃ t, step (due [.reset] rooted) = .next t ∧ (!t.rootOk) = true) ∧
    (∃ t, step (due [.host (.wr32 offBufLen 128#32)] rooted) = .next t ∧ (!t.rootOk) = true) ∧
    (∃ t, step (due [.host (.write 8 0x80C8#16 0#32)] rooted) = .next t ∧ (!t.rootOk) = true) ∧
    ∃ t, step (begun .vroot { rooted with bufLen := 127#16 }) = .next t ∧ (!t.rootOk) = true :=
  ⟨goesOn_next (p := fun t => !t.rootOk) (by decide), goesOn_next (p := fun t => !t.rootOk) (by decide),
    goesOn_next (p := fun t => !t.rootOk) (by decide +kernel),
    goesOn_next (p := fun t => !t.rootOk) (by decide +kernel)⟩

/-- BUSY rises and DONE falls at a CMD write; BUSY falls and DONE rises at the engine's step. -/
theorem witness_busy_and_done :
    (rooted.busy = false ∧ rooted.done = true ∧
      ∃ t, step (due [.host (.wr32 offCmd 0x50000000#32)] rooted) = .next t ∧
        (t.busy && !t.done) = true) ∧
    ((begun (.rdbyte 0) rooted).busy = true ∧ (begun (.rdbyte 0) rooted).done = false ∧
      ∃ t, step (due [.engine] (begun (.rdbyte 0) rooted)) = .next t ∧ (!t.busy && t.done) = true) :=
  ⟨⟨rfl, rfl, goesOn_next (p := fun t => t.busy && !t.done) (by decide)⟩,
    rfl, rfl, goesOn_next (p := fun t => !t.busy && t.done) (by decide +kernel)⟩

/-- The buffer's length and one of its bytes change. -/
theorem witness_buffer_changes :
    (∃ t, step (due [.host (.wr32 offBufLen 128#32)] loaded) = .next t ∧
      (t.bufLen != loaded.bufLen) = true) ∧
    ∃ t, step (due [.host (.write 8 0x8003#16 0#32)] loaded) = .next t ∧ (rawByte t 3 != rawByte loaded 3) = true :=
  ⟨goesOn_next (p := fun t => t.bufLen != loaded.bufLen) (by decide),
    goesOn_next (p := fun t => rawByte t 3 != rawByte loaded 3) (by decide +kernel)⟩

/-- RESULT changes. -/
theorem witness_result_changes :
    ∃ t, step (begun (.rdbyte 8) loaded) = .next t ∧ (t.result != loaded.result) = true :=
  goesOn_next (p := fun t => t.result != loaded.result) (by decide +kernel)

/-- A small buffer of which the engine sees one byte. -/
def shortBuffer (hidden : Byte) : State :=
  { State.reset with buf := [(0, 0x07#8), (1, hidden)], bufLen := 1#16 }

theorem witness_hidden_bytes_inv : (shortBuffer 8#8).Inv where
  busy_clean := by decide
  err_iff := by decide
  err_done := by decide
  ecode_le := by decide
  no_root := by decide
  root := fun h => Bool.noConfusion h
  len_le := by decide
  cap_range := by decide
  buf_wf := by decide
  buf_within := by decide

/-- For EngineNeverSeesBytesPastTheEnd, with the theorem above. -/
theorem witness_hidden_bytes :
    Instr.wf (.rdbits 0 0 16) = true ∧
      shortBuffer 9#8 = { shortBuffer 8#8 with
        buf := (shortBuffer 9#8).buf
        epoch := (shortBuffer 9#8).epoch } ∧
      (∀ a, a < (shortBuffer 8#8).bufLen.toNat → rawByte (shortBuffer 9#8) a = rawByte (shortBuffer 8#8) a) ∧
      exec (.rdbits 0 0 16) (shortBuffer 8#8) = .next (finish 7#64 (shortBuffer 8#8)) :=
  ⟨by decide, rfl, by decide, by rfl⟩

/-- For PendingIsHiddenWhileIdle. -/
theorem witness_pending_hidden : rooted.busy = false := rfl

/-- For WaitEnds and StatusReadCommutesWithTheEngine. -/
theorem witness_wait :
    (due (waitTurns 2 ++ [statusTurn]) (begun .vroot loaded)).busy = true ∧
      (due (waitTurns 2 ++ [statusTurn]) (begun .vroot loaded)).schedule = waitTurns 2 ++ [statusTurn] :=
  ⟨rfl, rfl⟩

theorem witness_load :
    (due (loadTurns 32766 [1#8, 2#8] ++ []) State.reset).busy = false ∧
      State.reset.bufCap.toNat ≤ 32768 ∧ 32766 + [1#8, 2#8].length ≤ State.reset.bufCap.toNat ∧
      (due (loadTurns 32766 [1#8, 2#8] ++ []) State.reset).schedule = loadTurns 32766 [1#8, 2#8] ++ [] :=
  ⟨rfl, by decide, by decide, rfl⟩

theorem witness_pseudo_instructions :
    (HostOp.load 32767 [1#8]).fits = true ∧ (∀ a, HostOp.load 32767 [1#8] ≠ .access a) ∧
      (HostOp.cmd (.clext 255)).fits = true ∧ ∀ a, HostOp.cmd (.clext 255) ≠ .access a :=
  ⟨by decide, fun _ => HostOp.noConfusion, by decide, fun _ => HostOp.noConfusion⟩

theorem witness_exec_pseudo_instruction :
    (due ((HostOp.exec (.cldesc 3) 2).turns ++ [statusTurn]) rooted).busy = false ∧
      Instr.wf (.cldesc 3) = true ∧
      (due ((HostOp.exec (.cldesc 3) 2).turns ++ [statusTurn]) rooted).schedule =
        (HostOp.exec (.cldesc 3) 2).turns ++ [statusTurn] :=
  ⟨rfl, by decide, rfl⟩

/-- For EveryProtocolRunFinishes and both sides of ProtocolIsExactlyWhatNeverStops. -/
theorem witness_protocol :
    obeysProtocol State.reset.busy (due (HostOp.exec .vroot 1).turns State.reset).schedule = true ∧
      obeysProtocol false [.host (.wr32 offCmd 0#32), .host (.rd32 offResultLo)] = false := by decide

end Sys2Proof.Tests
end

section
/-! The two branches of the padded byte (R10, R51), and the STATUS word of a state whose STATUS fields
are all clear, as those right after reset are (R26, R39). -/

namespace Sys2Proof.Machine

/-- The engine sees the stored byte below BUF_LEN (R10, R51). -/
theorem paddedByte_of_lt {s : State} {a : Nat} (h : a < s.bufLen.toNat) :
    paddedByte s a = rawByte s a :=
  if_pos h

/-- The engine sees zero at and past BUF_LEN (R10, R51). -/
theorem paddedByte_of_le {s : State} {a : Nat} (h : s.bufLen.toNat ≤ a) : paddedByte s a = 0#8 :=
  if_neg (Nat.not_lt.mpr h)

/-- STATUS reads 0 where every one of its fields is clear: the reserved bits are 0 (R26). -/
theorem statusWord_eq_zero {s : State} (hbusy : s.busy = false) (hdone : s.done = false)
    (herr : s.err = false) (hecode : s.ecode = 0#4) (hroot : s.rootOk = false)
    (hext : s.extCnt = 0#8) : statusWord s = 0#32 := by
  simp only [statusWord, hbusy, hdone, herr, hecode, hroot, hext]
  decide

/-- Settles O10: the two branches of the padded byte. -/
theorem engineReadsZeroPastTheBufferEnd : Obligations.EngineReadsZeroPastTheBufferEnd :=
  fun _ _ => ⟨paddedByte_of_lt, paddedByte_of_le⟩

/-- Settles O44: the STATUS fields of the reset state are all clear, and its memory lists no byte. -/
theorem resetLeavesTheListedValues : Obligations.ResetLeavesTheListedValues := by
  have hstatus : statusWord State.reset = 0#32 := statusWord_eq_zero rfl rfl rfl rfl rfl rfl
  have hbuf : ∀ a, Memory.lookup State.reset.buf a = none := lookup_nil
  exact ⟨hstatus, rfl, rfl, rfl, hbuf⟩

end Sys2Proof.Machine
end

section
/-! What a step that goes on has done, said once with every operation named by its own constructor: the
reset, the engine's turn by the way the command ends (R27, R202, R203), and the host's access by its
form (R61). The rules for single fields of the state are read off it by cases. -/

namespace Sys2Proof.Machine

/-- A turn taken off the schedule changes no byte of BUF. -/
@[simp] theorem rawByte_turnTaken (s : State) (a : Nat) : rawByte s.turnTaken a = rawByte s a :=
  rawByte_congr rfl rfl a

/-- A turn taken off the schedule leaves VROOT's verdict as it is. -/
@[simp] theorem rootFailure_turnTaken (s : State) : rootFailure s.turnTaken = rootFailure s :=
  rootFailure_of_bytes rfl fun a _ => rawByte_turnTaken s a

/-- The byte at `off` of the BUF port is written below BUF_CAP and ignored from there on (R54, R55). -/
theorem portWrite_cases (off : BitVec 16) (v : Word) (s : State) :
    (portAddress off < s.bufCap.toNat ∧
      portWrite off v s = bufWrite (portAddress off) (v.extractLsb' 0 8) s) ∨
    portWrite off v s = s := by
  by_cases h : portAddress off < s.bufCap.toNat
  · exact .inl ⟨h, if_pos h⟩
  · exact .inr (if_neg h)

/-- The ways a step from `s` can go on, with the state each leaves. -/
inductive StepForm (s : State) : State → Prop
  /-- The reset event (R230). -/
  | reset (turn : s.schedule.head? = some .reset) : StepForm s (resetEvent s.turnTaken)
  /-- An engine turn without a command (R27). -/
  | idle (turn : s.engineNext) (busy : s.busy = false) : StepForm s s.turnTaken
  /-- A command succeeds and leaves the record as it is (R202). -/
  | succeeds (v : DWord) (turn : s.engineNext) (busy : s.busy = true) :
      StepForm s (finish v s.turnTaken)
  /-- A command fails and leaves the record as it is, or the word is illegal (R93, R203). -/
  | fails (c : ErrorCode) (turn : s.engineNext) (busy : s.busy = true) :
      StepForm s (raiseError c s.turnTaken)
  /-- VROOT latches the record (R137). -/
  | latches (turn : s.engineNext) (busy : s.busy = true) (vroot : decode s.pending = .ok .vroot)
      (passes : rootFailure s = none) :
      StepForm s (finish (rootResult s.turnTaken) (latchRoot (rawByte s 126) s.turnTaken))
  /-- VROOT fails a check and withdraws the record (R138). -/
  | withdraws (c : ErrorCode) (turn : s.engineNext) (busy : s.busy = true)
      (vroot : decode s.pending = .ok .vroot) (fails : rootFailure s = some c) :
      StepForm s (raiseError c (clearRoot s.turnTaken))
  /-- A host read (R58). -/
  | read (v : ReadValue) (bits : Nat) (off : BitVec 16)
      (turn : s.schedule.head? = some (.host (.read bits off))) : StepForm s (returnRead v s.turnTaken)
  /-- A host write that is ignored (R54). -/
  | ignored (a : HostAccess) (turn : s.schedule.head? = some (.host a)) (busy : s.busy = false) :
      StepForm s s.turnTaken
  /-- The CMD write (R24). -/
  | cmd (w : Word) (turn : s.schedule.head? = some (.host (.write 32 0x0000#16 w)))
      (busy : s.busy = false) : StepForm s (cmdWrite w s.turnTaken)
  /-- The BUF_LEN write (R57). -/
  | len (w : Word) (turn : s.schedule.head? = some (.host (.write 32 0x0010#16 w)))
      (busy : s.busy = false) : StepForm s (lenWrite w s.turnTaken)
  /-- A BUF port write below BUF_CAP (R55). -/
  | buf (off : BitVec 16) (w : Word) (turn : s.schedule.head? = some (.host (.write 8 off w)))
      (port : 0x8000 ≤ off.toNat) (below : portAddress off < s.bufCap.toNat) (busy : s.busy = false) :
      StepForm s (bufWrite (portAddress off) (w.extractLsb' 0 8) s.turnTaken)

/-- The forms of the engine's step over a legal word. -/
theorem stepForm_of_exec {s t : State} {i : Instr} (he : s.engineNext) (hb : s.busy = true)
    (hi : decode s.pending = .ok i) (h : exec i s.turnTaken = .next t) : StepForm s t := by
  obtain ⟨u, hu, hform⟩ := exec_completes i s.turnTaken
  obtain rfl : u = t := by simpa [hu] using h
  rcases hform with ⟨-, v, rfl⟩ | ⟨-, c, -, rfl⟩ | ⟨rfl, hf, rfl⟩ | ⟨rfl, c, hf, rfl⟩
  · exact .succeeds v he hb
  · exact .fails c he hb
  · rw [rawByte_turnTaken]
    exact .latches he hb hi (by rwa [rootFailure_turnTaken] at hf)
  · exact .withdraws c he hb hi (by rwa [rootFailure_turnTaken] at hf)

/-- The forms of the host's step that is neither refused nor a hazard. -/
theorem stepForm_of_host {s : State} {a : HostAccess} (turn : s.schedule.head? = some (.host a))
    (ha : a.admitted = true) (hbusy : s.busy = true → a.isStatusRead = true) :
    StepForm s (performAccess a s.turnTaken) := by
  have idle (bits off v) (h : a = .write bits off v) : s.busy = false := by
    subst h
    exact Bool.eq_false_iff.2 fun hb => Bool.false_ne_true (hbusy hb)
  rcases performAccess_forms a s.turnTaken ha with ⟨bits, off, rfl, e⟩ | ⟨w, rfl, e⟩ | ⟨w, rfl, e⟩ |
    ⟨off, w, hp, rfl, e⟩ | ⟨off, w, rfl, -, -, -, e⟩
  · rw [e]
    exact .read _ bits off turn
  · rw [e]
    exact .cmd w turn (idle _ _ _ rfl)
  · rw [e]
    exact .len w turn (idle _ _ _ rfl)
  · rw [e]
    rcases portWrite_cases off w s.turnTaken with ⟨hk, e'⟩ | e'
    · rw [e']
      exact .buf off w turn hp hk (idle _ _ _ rfl)
    · rw [e']
      exact .ignored _ turn (idle _ _ _ rfl)
  · rw [e]
    exact .ignored _ turn (idle _ _ _ rfl)

/-- A step that goes on has one of the forms. -/
theorem stepForm_of_step {s t : State} (h : step s = .next t) : StepForm s t := by
  rcases step_cases h with ⟨turn, rfl⟩ | ⟨he, hb, rfl⟩ | ⟨he, hb, -, rfl⟩ | ⟨he, hb, i, hi, hx⟩ |
    ⟨a, turn, ha, hbusy, rfl⟩
  · exact .reset turn
  · exact .idle he hb
  · exact .fails .illegal he hb
  · exact stepForm_of_exec he hb hi hx
  · exact stepForm_of_host turn ha hbusy

end Sys2Proof.Machine
end

section
/-! The invariants of R40 under each operation on the state, then at reset and over every step. -/

namespace Sys2Proof.Machine

/-- A state whose registers but BUF_CAP are clear and whose buffer is unwritten meets the invariants. -/
theorem inv_of_cleared {t : State} (hbusy : t.busy = false) (herr : t.err = false)
    (hecode : t.ecode = 0#4) (hroot : t.rootOk = false) (hext : t.extCnt = 0#8)
    (hlen : t.bufLen = 0#16) (hbuf : t.buf = [])
    (hcap : Config.bufCapMin ≤ t.bufCap.toNat ∧ t.bufCap.toNat ≤ Config.bufCapMax) : t.Inv where
  busy_clean := by simp [hbusy]
  err_iff := by simp [herr, hecode]
  err_done := by simp [herr]
  ecode_le := by simp [hecode]
  no_root := fun _ => hext
  root := by simp [hroot]
  len_le := by simp [hlen]
  cap_range := hcap
  buf_wf := by simp [hbuf, Memory.wf]
  buf_within := by simp [hbuf, Memory.within]

/-- The invariants of STATUS without the record, which R24, R202 and R203 concern. -/
structure StatusInv (s : State) : Prop where
  busy_clean : s.busy = true → s.done = false ∧ s.err = false ∧ s.ecode = 0#4
  err_iff : s.err = false ↔ s.ecode = 0#4
  err_done : s.err = true → s.done = true
  ecode_le : s.ecode.toNat ≤ 9

/-- `t` has the record and the buffer of `s`. -/
structure SameRecordAndBuffer (s t : State) : Prop where
  rootOk : t.rootOk = s.rootOk
  extCnt : t.extCnt = s.extCnt
  bufLen : t.bufLen = s.bufLen
  bufCap : t.bufCap = s.bufCap
  buf : t.buf = s.buf
  epoch : t.epoch = s.epoch

/-- The invariants of the record and the buffer hold wherever those are the same. -/
theorem inv_of_sameRecordAndBuffer {s t : State} (h : s.Inv) (e : SameRecordAndBuffer s t)
    (hs : StatusInv t) : t.Inv where
  busy_clean := hs.busy_clean
  err_iff := hs.err_iff
  err_done := hs.err_done
  ecode_le := hs.ecode_le
  no_root := by simpa only [e.rootOk, e.extCnt] using h.no_root
  root := by
    have hbytes := rawByte_congr e.buf e.epoch
    simpa only [e.rootOk, e.extCnt, hbytes, rootFailure_of_bytes e.bufLen fun a _ => hbytes a]
      using h.root
  len_le := by simpa only [e.bufLen, e.bufCap] using h.len_le
  cap_range := by simpa only [e.bufCap] using h.cap_range
  buf_wf := by simpa only [e.buf] using h.buf_wf
  buf_within := by simpa only [e.buf, e.bufCap] using h.buf_within

theorem inv_turnTaken {s : State} (h : s.Inv) : s.turnTaken.Inv :=
  inv_of_sameRecordAndBuffer h ⟨rfl, rfl, rfl, rfl, rfl, rfl⟩
    ⟨h.busy_clean, h.err_iff, h.err_done, h.ecode_le⟩

theorem inv_returnRead (v : ReadValue) {s : State} (h : s.Inv) : (returnRead v s).Inv :=
  inv_of_sameRecordAndBuffer h ⟨rfl, rfl, rfl, rfl, rfl, rfl⟩
    ⟨h.busy_clean, h.err_iff, h.err_done, h.ecode_le⟩

theorem inv_cmdWrite (w : Word) {s : State} (h : s.Inv) : (cmdWrite w s).Inv :=
  inv_of_sameRecordAndBuffer h ⟨rfl, rfl, rfl, rfl, rfl, rfl⟩
    ⟨by simp, by simp, by simp, by simp⟩

theorem inv_finish (v : DWord) {s : State} (h : s.Inv) : (finish v s).Inv :=
  inv_of_sameRecordAndBuffer h ⟨rfl, rfl, rfl, rfl, rfl, rfl⟩
    ⟨by simp, h.err_iff, by simp, h.ecode_le⟩

/-- The code of an error is from 1 to 9 (R201). -/
theorem number_range (c : ErrorCode) : c.number ≠ 0#4 ∧ c.number.toNat ≤ 9 := by
  cases c <;> decide

theorem inv_raiseError (c : ErrorCode) {s : State} (h : s.Inv) : (raiseError c s).Inv :=
  have ⟨hne, hle⟩ := number_range c
  inv_of_sameRecordAndBuffer h ⟨rfl, rfl, rfl, rfl, rfl, rfl⟩ ⟨by simp, by simp [hne], by simp, hle⟩

/-- Latching the record leaves VROOT's verdict as it is. -/
theorem rootFailure_latchRoot (n : Byte) (s : State) : rootFailure (latchRoot n s) = rootFailure s :=
  rootFailure_of_bytes rfl fun a _ => rawByte_congr rfl rfl a

/-- The record may be latched where no check of VROOT fails (R137). -/
theorem inv_latchRoot {s : State} (h : s.Inv) (hf : rootFailure s = none) :
    (latchRoot (rawByte s 126) s).Inv where
  busy_clean := h.busy_clean
  err_iff := h.err_iff
  err_done := h.err_done
  ecode_le := h.ecode_le
  no_root := by simp
  root _ := ⟨(rootFailure_latchRoot _ s).trans hf, (rawByte_congr rfl rfl 126).symm⟩
  len_le := h.len_le
  cap_range := h.cap_range
  buf_wf := h.buf_wf
  buf_within := h.buf_within

/-- With the record withdrawn, the buffer's own invariants are all that a change of the buffer has to
keep. -/
theorem inv_of_withdrawn {s : State} (h : s.Inv) (l : BitVec 16) (m : Memory)
    (hl : l.toNat ≤ s.bufCap.toNat) (hwf : Memory.wf m = true)
    (hin : Memory.within s.bufCap.toNat m = true) : (clearRoot { s with bufLen := l, buf := m }).Inv where
  busy_clean := h.busy_clean
  err_iff := h.err_iff
  err_done := h.err_done
  ecode_le := h.ecode_le
  no_root := by simp
  root := by simp
  len_le := hl
  cap_range := h.cap_range
  buf_wf := hwf
  buf_within := hin

theorem inv_clearRoot {s : State} (h : s.Inv) : (clearRoot s).Inv :=
  inv_of_withdrawn h s.bufLen s.buf h.len_le h.buf_wf h.buf_within

theorem inv_bufWrite {a : Nat} (v : Byte) {s : State} (h : s.Inv) (ha : a < s.bufCap.toNat) :
    (bufWrite a v s).Inv :=
  inv_of_withdrawn h s.bufLen _ h.len_le (store_wf _ a v h.buf_wf)
    (store_within _ _ a v ha h.buf_within)

/-- The stored length is at most the capacity, whose 16 bits hold it (R34, R57). -/
theorem clampedLen_le (cap v : Word) : (clampedLen cap v).toNat ≤ cap.toNat := by
  rw [clampedLen, BitVec.toNat_ofNat]
  omega

theorem inv_lenWrite (v : Word) {s : State} (h : s.Inv) : (lenWrite v s).Inv :=
  inv_of_withdrawn h _ s.buf (clampedLen_le s.bufCap v) h.buf_wf h.buf_within

theorem inv_resetEvent {s : State} (h : s.Inv) : (resetEvent s).Inv :=
  inv_of_cleared rfl rfl rfl rfl rfl rfl rfl h.cap_range

/-- Settles O47: each form a step can take keeps the invariants. -/
theorem stepKeepsTheInvariants : Obligations.StepKeepsTheInvariants := by
  intro s t h hstep
  have hs : s.turnTaken.Inv := inv_turnTaken h
  cases stepForm_of_step hstep with
  | reset => exact inv_resetEvent hs
  | idle => exact hs
  | succeeds v => exact inv_finish v hs
  | fails c => exact inv_raiseError c hs
  | latches _ _ _ passes =>
    rw [← rootFailure_turnTaken] at passes
    rw [← rawByte_turnTaken]
    exact inv_finish _ (inv_latchRoot hs passes)
  | withdraws c => exact inv_raiseError c (inv_clearRoot hs)
  | read v => exact inv_returnRead v hs
  | ignored => exact hs
  | cmd w => exact inv_cmdWrite w hs
  | len w => exact inv_lenWrite w hs
  | buf off w _ _ below => exact inv_bufWrite _ hs below

/-- Settles O46: the reset state is clear and has the default capacity, the largest one of R7. -/
theorem resetMeetsTheInvariants : Obligations.ResetMeetsTheInvariants :=
  inv_of_cleared rfl rfl rfl rfl rfl rfl rfl (by decide)

end Sys2Proof.Machine
end

section
/-! The events at which ROOT_OK, BUSY, DONE, RESULT and the buffer change (R27, R28, R31, R33 to R36),
each read off the forms of a step. -/

namespace Sys2Proof.Machine

/-- The magic check of VROOT, byte by byte (R12, R134). -/
theorem rootMagicOk_iff (s : State) : rootMagicOk s = true ↔ magicStands s := by
  simp [rootMagicOk, rootMagic, bytesMatch, magicStands]

/-- The checksum check of VROOT as a sum (R130, R135). -/
theorem rootSumOk_iff (s : State) : rootSumOk s = true ↔ blockTotal s 0 % 256 = 0 := by
  have hsum : byteSum s 0 128 = blockTotal s 0 := byteSum_eq_sum s 0 128
  rw [rootSumOk, beq_iff_eq, ← BitVec.toNat_inj, sum8_toNat, hsum]
  rfl

/-- The version check of VROOT (R136). -/
theorem rootVersionOk_iff (s : State) : rootVersionOk s = true ↔ versionStands s := by
  have hpos : 1 ≤ (rawByte s 19).toNat ↔ rawByte s 19 ≠ 0#8 := by
    rw [Ne, ← BitVec.toNat_inj, BitVec.toNat_ofNat]
    omega
  rw [rootVersionOk, Bool.and_eq_true, beq_iff_eq, decide_eq_true_iff, hpos, versionStands]

/-- No check of VROOT fails exactly when the record is valid in the spec's own terms (R132). -/
theorem rootFailure_none_iff_valid (s : State) :
    rootFailure s = none ↔
      128 ≤ s.bufLen.toNat ∧ magicStands s ∧ blockTotal s 0 % 256 = 0 ∧ versionStands s := by
  rw [rootFailure_none_iff, rootLengthOk_iff, rootMagicOk_iff, rootSumOk_iff, rootVersionOk_iff]

/-- Settles O48: ROOT_OK rises in the form `latches` alone, and falls in `reset`, `withdraws`, `len` and
`buf`. -/
theorem rootOkChangesOnlyAtItsEvents : Obligations.RootOkChangesOnlyAtItsEvents := by
  intro s t hstep
  cases stepForm_of_step hstep with
  | reset turn => exact ⟨by simp, fun _ _ => .inl turn⟩
  | latches _ busy vroot passes =>
    exact ⟨fun _ _ => ⟨busy, vroot, (rootFailure_none_iff_valid s).1 passes⟩, by simp⟩
  | withdraws c _ busy vroot fails =>
    refine ⟨by simp, fun _ _ => .inr (.inr (.inr ⟨busy, vroot, fun valid => ?_⟩))⟩
    simp [(rootFailure_none_iff_valid s).2 valid] at fails
  | len w turn => exact ⟨by simp, fun _ _ => .inr (.inl ⟨w, turn⟩)⟩
  | buf off w turn port => exact ⟨by simp, fun _ _ => .inr (.inr (.inl ⟨off, w, port, turn⟩))⟩
  | idle | succeeds | fails | read | ignored | cmd => simp +contextual

/-- Settles O49: BUSY rises and DONE falls in the form `cmd`; the four ways a command ends are engine
moves with BUSY = 1. -/
theorem busyAndDoneChangeOnlyAtTheirEvents : Obligations.BusyAndDoneChangeOnlyAtTheirEvents := by
  intro s t hstep
  cases stepForm_of_step hstep with
  | reset turn => exact ⟨by simp, fun _ _ => .inr (.inr turn), fun _ _ => .inl turn, by simp⟩
  | succeeds _ turn busy | fails _ turn busy | latches turn busy | withdraws _ turn busy =>
    exact ⟨by simp, fun _ _ => turn.imp_right .inl, by simp, fun _ _ => ⟨busy, turn⟩⟩
  | cmd w turn => exact ⟨fun _ _ => ⟨w, turn, rfl⟩, by simp, fun _ _ => .inr ⟨w, turn⟩, by simp⟩
  | idle | read | ignored | len | buf => simp +contextual

/-- Settles O51: RESULT is written by the reset and by a command that succeeds, which leaves ERR as it
was. -/
theorem onlyCommandsWriteResult : Obligations.OnlyCommandsWriteResult := by
  intro s t hstep hne
  cases stepForm_of_step hstep with
  | reset turn => exact .inl turn
  | succeeds v turn busy => exact .inr ⟨busy, turn, id⟩
  | latches turn busy => exact .inr ⟨busy, turn, id⟩
  | idle | fails | withdraws | read | ignored | cmd | len | buf => exact absurd rfl hne

/-- Settles O50: only the reset and the two buffer writes leave BUF_LEN, the written bytes or the epoch
other than they were, and a BUF port write reaches the byte its offset names. -/
theorem onlyTheHostChangesTheBuffer : Obligations.OnlyTheHostChangesTheBuffer := by
  intro s t hstep
  cases stepForm_of_step hstep with
  | reset turn => exact ⟨rfl, fun _ => .inl turn, fun _ _ => .inl turn⟩
  | len w turn =>
    exact ⟨rfl, fun _ => .inr ⟨w, turn⟩, fun a ha => absurd (rawByte_congr rfl rfl a) ha⟩
  | buf off w turn port =>
    refine ⟨rfl, fun hl => absurd rfl hl, fun a ha => .inr ⟨off, w, ?_, turn⟩⟩
    have : a = portAddress off := by
      by_contra hne
      rw [rawByte_bufWrite, if_neg hne, rawByte_turnTaken] at ha
      exact ha rfl
    rw [this, portAddress_eq]
    omega
  | idle | succeeds | fails | latches | withdraws | read | ignored | cmd =>
    exact ⟨rfl, fun hl => absurd rfl hl, fun a ha => absurd (rawByte_congr rfl rfl a) ha⟩

end Sys2Proof.Machine
end

section
/-! The turn a step takes (R20, R27, R230): the state whose first turn is taken, and what the step is by
the kind of that turn. -/

namespace Sys2Proof.Machine

/-- Taking the first turn leaves the rest of the schedule. -/
theorem turnTaken_of_cons {s : State} {turn : Turn} {rest : List Turn} (h : s.schedule = turn :: rest) :
    s.turnTaken = { s with schedule := rest } := by
  rw [State.turnTaken, h, List.tail_cons]

/-- The engine's turn with a command pending is the command's execution (R27, R90). -/
theorem engineTurn_of_decode {s : State} {i : Instr} (hb : s.busy = true)
    (hi : decode s.pending = .ok i) : engineTurn s = exec i s := by
  rw [engineTurn, if_pos hb, executePending, hi]

/-- The engine has no step while no command is pending (R27). -/
theorem engineTurn_of_idle {s : State} (hb : s.busy = false) : engineTurn s = .next s := by
  rw [engineTurn, hb, if_neg Bool.false_ne_true]

/-- The engine's step over a pending word that decodes (R27, R90). -/
theorem step_of_decode {s : State} {i : Instr} (he : s.engineNext) (hb : s.busy = true)
    (hi : decode s.pending = .ok i) : step s = exec i s.turnTaken := by
  rw [step_engineNext s he, engineTurn_of_decode (s := s.turnTaken) hb hi]

/-- The engine's step without a command spends its turn (R27). -/
theorem step_of_idle {s : State} (he : s.engineNext) (hb : s.busy = false) :
    step s = .next s.turnTaken := by
  rw [step_engineNext s he, engineTurn_of_idle (s := s.turnTaken) hb]

/-- The engine is next where its turn heads the schedule. -/
theorem engineNext_of_cons {s : State} {rest : List Turn} (h : s.schedule = .engine :: rest) :
    s.engineNext :=
  .inr (by rw [h, List.head?_cons])

/-- A word the table decodes is a word the decoder accepts (R90). -/
theorem decode_tableWord {nbits w : Nat} {i : Instr} (h : decodeTableWord nbits w = some i) :
    decode (tableWord nbits w) = .ok i := by
  rw [decodeTableWord] at h
  split at h
  · rename_i j hj
    rw [hj, Option.some.inj h]
  · cases h

/-- Settles O6: the engine is next in both schedules. -/
theorem stepRunsTheDecodedCommand : Obligations.StepRunsTheDecodedCommand := by
  refine fun s i hb hi => ⟨fun h => ?_, fun rest h => ?_⟩
  · rw [step_of_decode (.inl h) hb hi, turnTaken_of_nil s h]
  · rw [step_of_decode (engineNext_of_cons h) hb hi, turnTaken_of_cons h]

/-- Settles O7: the host's turn, and the engine's two turns without a command. -/
theorem stepTakesTheScheduledTurn : Obligations.StepTakesTheScheduledTurn := by
  refine fun s => ⟨fun a rest h => ?_, fun rest hb h => ?_, fun hb h => ?_⟩
  · rw [step_host s a (by rw [h, List.head?_cons]), turnTaken_of_cons h]
  · rw [step_of_idle (engineNext_of_cons h) hb, turnTaken_of_cons h]
  · rw [step_of_idle (.inl h) hb, turnTaken_of_nil s h]

/-- Settles O8: the placed word is pending with the engine's turn next, and taking that turn leaves the
CMD write. -/
theorem placedWordRunsNext : Obligations.PlacedWordRunsNext := by
  intro s w i hw hi
  have hword : tableWord 32 w = BitVec.ofNat 32 w := by rw [tableWord, Nat.mod_eq_of_lt hw]
  have hrun : step (s.withFetchWord 32 w) = exec i (s.withFetchWord 32 w).turnTaken :=
    step_of_decode (engineNext_of_cons rfl) rfl (decode_tableWord hi)
  rw [hrun, turnTaken_of_cons rfl, ← hword]
  rfl

/-- Settles O45: the step is the reset event, after which no byte is written and BUF_LEN is 0. -/
theorem resetAtAnyPointLeavesTheResetState : Obligations.ResetAtAnyPointLeavesTheResetState := by
  intro s rest h
  have hstep : step s = .next (resetEvent s.turnTaken) := step_reset s (by rw [h, List.head?_cons])
  exact ⟨_, hstep, statusWord_eq_zero rfl rfl rfl rfl rfl rfl, rfl, rfl, rfl,
    by rw [resetEvent_schedule, turnTaken_of_cons h], rfl, fun _ => rfl,
    fun _ => paddedByte_of_le (Nat.zero_le _)⟩

/-- Settles O29: of the four ways a command ends, the two that touch the record are VROOT's. -/
theorem onlyVrootWritesTheRecord : Obligations.OnlyVrootWritesTheRecord := by
  intro i s t hi h
  obtain ⟨u, hu, hform⟩ := exec_completes i s
  obtain rfl : u = t := by simpa [hu] using h
  rcases hform with ⟨-, v, rfl⟩ | ⟨-, c, -, rfl⟩ | ⟨rfl, -, -⟩ | ⟨rfl, -⟩
  · exact ⟨rfl, rfl⟩
  · exact ⟨rfl, rfl⟩
  · exact absurd rfl hi
  · exact absurd rfl hi

end Sys2Proof.Machine
end

section
/-! The host's registers and port with no command pending, and STATUS at any time (R24, R26, R56, R58). -/

namespace Sys2Proof.Machine

/-- A concatenation of words is a sum. -/
theorem toNat_append_eq_add {m n : Nat} (x : BitVec m) (y : BitVec n) :
    (x ++ y).toNat = x.toNat * 2 ^ n + y.toNat := by
  rw [BitVec.toNat_append, ← Nat.shiftLeft_add_eq_or_of_lt y.isLt, Nat.shiftLeft_eq]

/-- The STATUS word as a sum of its fields (R26). -/
theorem statusWord_toNat (s : State) :
    (statusWord s).toNat = s.busy.toNat + 2 * s.done.toNat + 4 * s.err.toNat + 16 * s.ecode.toNat +
      256 * s.rootOk.toNat + 65536 * s.extCnt.toNat := by
  simp only [statusWord, flagBit, toNat_append_eq_add, BitVec.toNat_ofBool, BitVec.toNat_ofNat]
  omega

/-- A STATUS read is made in every state (R58, R209). -/
theorem hostTurn_statusRead (s : State) :
    hostTurn (.rd32 offStatus) s = .next (returnRead (.word (statusWord s)) s) := by
  have hread : (HostAccess.rd32 offStatus).isStatusRead = true := rfl
  rcases hostTurn_cases (.rd32 offStatus) s with ⟨ha, -⟩ | ⟨-, -, hn, -⟩ | ⟨-, -, h⟩
  · rw [admitted_of_isStatusRead _ hread] at ha
    cases ha
  · rw [hread] at hn
    cases hn
  · rw [h, performAccess_statusRead _ s hread]

/-- A 32-bit read among the registers returns the register's value (R58). -/
theorem hostTurn_registerRead {s : State} (off : BitVec 16) (hb : s.busy = false)
    (hlt : off.toNat < 0x8000) (hal : off.toNat % 4 = 0) :
    hostTurn (.read 32 off) s = .next (returnRead (.word (registerValue off s)) s) := by
  have ha : (HostAccess.read 32 off).admitted = true := by
    rw [HostAccess.admitted, admits_of_register 32 off hlt]
    simp [hal]
  have hv : readValue off s = .word (registerValue off s) := by
    rw [readValue, inPort_eq_false off hlt, if_neg Bool.false_ne_true]
  rw [hostTurn_idle _ s hb ha, performAccess, hv]

/-- An 8-bit read at the BUF port returns the stored byte below BUF_CAP (R56). -/
theorem hostTurn_portRead {s : State} (off : BitVec 16) (hb : s.busy = false)
    (hp : 0x8000 ≤ off.toNat) (hk : portAddress off < s.bufCap.toNat) :
    hostTurn (.read 8 off) s = .next (returnRead (.byte (rawByte s (portAddress off))) s) := by
  have ha : (HostAccess.read 8 off).admitted = true := by
    rw [HostAccess.admitted, admits_of_port 8 off hp]
    rfl
  have hv : readValue off s = .byte (rawByte s (portAddress off)) := by
    rw [readValue, if_pos ((inPort_iff off).2 hp), portValue, if_pos hk]
  rw [hostTurn_idle _ s hb ha, performAccess, hv]

/-- The host's CMD write while no command is pending (R24). -/
theorem hostTurn_cmdWrite {s : State} (w : Word) (hb : s.busy = false) :
    hostTurn (.wr32 offCmd w) s = .next (cmdWrite w s) :=
  hostTurn_idle (.wr32 offCmd w) s hb (by rfl)

/-- RESULT put together from its halves (R33, R97). -/
theorem joinResult_halves (v : DWord) :
    joinResult (v.extractLsb' 0 32) (v.extractLsb' 32 32) = v := by
  apply BitVec.eq_of_toNat_eq
  rw [joinResult, toNat_append_eq_add, BitVec.extractLsb'_toNat, BitVec.extractLsb'_toNat,
    Nat.shiftRight_eq_div_pow, Nat.shiftRight_eq_div_pow]
  have := v.isLt
  simp only [Config.resultWidth_eq] at this
  omega

/-- A byte that no entry of memory holds reads as the free value of the epoch (R231). -/
theorem rawByte_of_unwritten {s : State} {a : Nat} (h : Memory.lookup s.buf a = none) :
    rawByte s a = Config.unwrittenByte s.epoch a := by
  rw [rawByte, h, Option.getD_none]

/-- Settles O32: the write is admitted, no command is pending, and the model's CMD write is R24's list. -/
theorem cmdWriteBeginsACommand : Obligations.CmdWriteBeginsACommand :=
  fun _ w hb => hostTurn_cmdWrite w hb

/-- Settles O35: the read is made in every state, and returns the STATUS word, a sum of its fields. -/
theorem statusReadReturnsTheFields : Obligations.StatusReadReturnsTheFields :=
  fun s => ⟨statusWord s, hostTurn_statusRead s, statusWord_toNat s⟩

/-- Settles O36: each register is what a read at its offset returns. -/
theorem registerReadsReturnTheRegisters : Obligations.RegisterReadsReturnTheRegisters := by
  intro s hb
  have read (off : BitVec 16) := hostTurn_registerRead (s := s) off hb
  exact ⟨⟨_, _, read offResultLo (by decide) (by decide), read offResultHi (by decide) (by decide),
      joinResult_halves s.result⟩,
    read offBufCap (by decide) (by decide), read offCmd (by decide) (by decide)⟩

/-- Settles O38: the port offset of a BUF address below 32768 names that address. -/
theorem portReadReturnsTheStoredByte : Obligations.PortReadReturnsTheStoredByte := by
  intro s a hb ha hcap
  have hwin : a < 32768 := by omega
  have haddr := portAddress_portOffset a hwin
  have hread := hostTurn_portRead (BitVec.ofNat 16 (0x8000 + a)) hb
    (by rw [portOffset_toNat a hwin]; omega) (by rwa [haddr])
  rw [haddr] at hread
  exact ⟨hread, rawByte_of_unwritten⟩

end Sys2Proof.Machine
end

section
/-! A relation that the step keeps relates runs of every length, and PENDING without a command is hidden
by such a relation (R25, R39). -/

namespace Sys2Proof.Machine

/-- What outcomes that agree are. -/
theorem OutcomesAgree.cases {R : State → State → Prop} {x y : Host.Outcome State Fault Refusal}
    (h : OutcomesAgree R x y) :
    (∃ s t, x = .next s ∧ y = .next t ∧ R s t) ∨ (∃ r, x = .fault r ∧ y = .fault r) ∨
      ∃ r, x = .refused r ∧ y = .refused r := by
  cases x with
  | next s =>
    cases y with
    | next t => exact .inl ⟨s, t, rfl, rfl, h⟩
    | fault q => exact h.elim
    | refused q => exact h.elim
  | fault r =>
    cases y with
    | next t => exact h.elim
    | fault q => exact .inr (.inl ⟨r, rfl, congrArg Host.Outcome.fault (Eq.symm h)⟩)
    | refused q => exact h.elim
  | refused r =>
    cases y with
    | next t => exact h.elim
    | fault q => exact h.elim
    | refused q => exact .inr (.inr ⟨r, rfl, congrArg Host.Outcome.refused (Eq.symm h)⟩)

/-- Outcomes that agree under a relation agree under a weaker one. -/
theorem OutcomesAgree.mono {R Q : State → State → Prop} (hRQ : ∀ a b, R a b → Q a b)
    {x y : Host.Outcome State Fault Refusal} (h : OutcomesAgree R x y) : OutcomesAgree Q x y := by
  rcases h.cases with ⟨s, t, rfl, rfl, hst⟩ | ⟨r, rfl, rfl⟩ | ⟨r, rfl, rfl⟩
  · exact hRQ s t hst
  · exact rfl
  · exact rfl

/-- An outcome agrees with itself under a reflexive relation. -/
theorem OutcomesAgree.refl {R : State → State → Prop} (hR : ∀ a, R a a)
    (x : Host.Outcome State Fault Refusal) : OutcomesAgree R x x := by
  cases x with
  | next s => exact hR s
  | fault r => exact rfl
  | refused r => exact rfl

/-- Related states have agreeing runs of every length where every step keeps the relation. -/
theorem outcomesAgree_runFrom {R : State → State → Prop}
    (keeps : ∀ a b, R a b → OutcomesAgree R (step a) (step b)) (k : Nat) {a b : State} (h : R a b) :
    OutcomesAgree R (runFrom k a) (runFrom k b) := by
  induction k generalizing a b with
  | zero => exact h
  | succ k ih =>
    rcases (keeps a b h).cases with ⟨s, t, ha, hb, hst⟩ | ⟨r, ha, hb⟩ | ⟨r, ha, hb⟩
    · rw [runFrom_succ_next k a s ha, runFrom_succ_next k b t hb]
      exact ih hst
    · rw [runFrom_succ_fault k a r ha, runFrom_succ_fault k b r hb]
      exact rfl
    · rw [runFrom_succ_refused k a r ha, runFrom_succ_refused k b r hb]
      exact rfl

/-- The second state is the first, but for a word in PENDING that no command waits for. -/
inductive PendingTwin : State → State → Prop
  | same (s : State) : PendingTwin s s
  | differs (s : State) (w : Word) (busy : s.busy = false) : PendingTwin s { s with pending := w }

/-- The observation of R240 and the bytes of BUF do not show PENDING. -/
theorem observe_of_pendingTwin {s t : State} (h : PendingTwin s t) :
    t.observe = s.observe ∧ ∀ a, rawByte t a = rawByte s a := by
  cases h with
  | same => exact ⟨rfl, fun _ => rfl⟩
  | differs w =>
    have hbytes : ∀ a, rawByte { s with pending := w } a = rawByte s a := rawByte_congr rfl rfl
    have hbuf : ({ s with pending := w } : State).bufBytes = s.bufBytes :=
      (bufBytes_eq_iff rfl).2 fun a _ => hbytes a
    refine ⟨?_, hbytes⟩
    rw [State.observe, hbuf]
    rfl

/-- An access with no command pending does not show PENDING, and the CMD write overwrites it. -/
theorem performAccess_pendingTwin (a : HostAccess) {s : State} (w : Word) (hb : s.busy = false)
    (ha : a.admitted = true) :
    PendingTwin (performAccess a s) (performAccess a { s with pending := w }) := by
  rcases performAccess_forms a s ha with ⟨bits, off, rfl, -⟩ | ⟨v, rfl, -⟩ | ⟨v, rfl, -⟩ |
    ⟨off, v, hp, rfl, -⟩ | ⟨off, v, rfl, hlt, hc, hl, -⟩
  · exact .differs _ w hb
  · have hcmd (t : State) : performAccess (.write 32 0x0000#16 v) t = cmdWrite v t := rfl
    rw [hcmd, hcmd]
    exact .same (cmdWrite v s)
  · exact .differs _ w hb
  · simp only [performAccess, (inPort_iff off).2 hp, if_true, portWrite]
    split
    · exact .differs _ w hb
    · exact .differs s w hb
  · simp only [performAccess, inPort_eq_false off hlt, registerWrite, if_neg hc, if_neg hl]
    exact .differs s w hb

/-- A host's turn with no command pending keeps the twins. -/
theorem hostTurn_pendingTwin (a : HostAccess) {s : State} (w : Word) (hb : s.busy = false) :
    OutcomesAgree PendingTwin (hostTurn a s) (hostTurn a { s with pending := w }) := by
  cases ha : a.admitted with
  | false =>
    rw [hostTurn, hostTurn, if_pos ha, if_pos ha]
    exact rfl
  | true =>
    rw [hostTurn_idle a s hb ha, hostTurn_idle a { s with pending := w } hb ha]
    exact performAccess_pendingTwin a w hb ha

/-- Every step keeps the twins. -/
theorem step_pendingTwin (s t : State) (h : PendingTwin s t) :
    OutcomesAgree PendingTwin (step s) (step t) := by
  cases h with
  | same => exact .refl .same _
  | differs w hb =>
    rcases next_turn s with he | hr | ⟨a, ha⟩
    · rw [step_of_idle he hb, step_of_idle (s := { s with pending := w }) he hb]
      exact .differs s.turnTaken w hb
    · rw [step_reset s hr, step_reset { s with pending := w } hr]
      exact .same _
    · rw [step_host s a ha, step_host { s with pending := w } a ha]
      exact hostTurn_pendingTwin a (s := s.turnTaken) w hb

/-- Settles O53: the twins are kept by every step and observed alike. -/
theorem pendingIsHiddenWhileIdle : Obligations.PendingIsHiddenWhileIdle :=
  fun s w k hb => (outcomesAgree_runFrom step_pendingTwin k (.differs s w hb)).mono
    fun _ _ => observe_of_pendingTwin

end Sys2Proof.Machine
end

section
/-! `exec C` as a run (R97): the CMD write of a word that decodes to C, the polls, the engine's step and
the last poll. -/

namespace Sys2Proof

/-- The assembler's word of a command decodes to it (R90, R95). -/
theorem decode_encode {i : Instr} (h : i.wf = true) : decode (encode i) = .ok i := by
  cases i with
  | rdbits o b n =>
    obtain ⟨ho, hb, hn⟩ := (wf_rdbits_iff o b n).1 h
    have hw := encode_rdbits_toNat o b n ho hb hn
    rw [decode_eq, if_pos (by omega)]
    simp only [rowRdbits, byteoffField_eq, wordField_eq, hw]
    congr 2 <;> omega
  | rdbyte o =>
    have ho := (wf_rdbyte_iff o).1 h
    have hw := encode_rdbyte_toNat o ho
    rw [decode_eq, if_neg (by omega), if_pos (by omega)]
    simp only [rowRdbyte, byteoffField_eq, hw]
    congr 2
    omega
  | rdbytes o n =>
    obtain ⟨ho, hn⟩ := (wf_rdbytes_iff o n).1 h
    have hw := encode_rdbytes_toNat o n ho hn
    rw [decode_eq, if_neg (by omega), if_neg (by omega), if_pos (by omega)]
    simp only [rowRdbytes, byteoffField_eq, wordField_eq, hw]
    congr 2 <;> omega
  | cksum k =>
    have hk := (wf_cksum_iff k).1 h
    have hw := encode_cksum_toNat k hk
    rw [decode_eq, if_neg (by omega), if_neg (by omega), if_neg (by omega), if_pos (by omega)]
    simp only [rowCksum, wordField_eq, hw]
    congr 2
    omega
  | vroot => decide
  | cldesc k =>
    have hk := (wf_cldesc_iff k).1 h
    have hw := encode_cldesc_toNat k hk
    rw [decode_eq, if_neg (by omega), if_neg (by omega), if_neg (by omega), if_neg (by omega),
      if_neg (by omega), if_pos (by omega)]
    simp only [rowCldesc, wordField_eq, hw]
    congr 2
    omega
  | clext k =>
    have hk := (wf_clext_iff k).1 h
    have hw := encode_clext_toNat k hk
    rw [decode_eq, if_neg (by omega), if_neg (by omega), if_neg (by omega), if_neg (by omega),
      if_neg (by omega), if_neg (by omega), if_pos (by omega)]
    simp only [rowClext, wordField_eq, hw]
    congr 2
    omega

end Sys2Proof

namespace Sys2Proof.Machine

/-- A poll's step returns the STATUS word (R58, R97). -/
theorem step_statusTurn {s : State} {rest : List Turn} (h : s.schedule = statusTurn :: rest) :
    step s = .next { s with
      schedule := rest
      hostReads := s.hostReads ++ [.word (statusWord s)] } := by
  rw [step_host s (.rd32 offStatus) (by rw [h, List.head?_cons]; rfl), hostTurn_statusRead,
    turnTaken_of_cons h]
  rfl

/-- The CMD write's step (R24, R97). -/
theorem step_cmdTurn {s : State} {i : Instr} {rest : List Turn} (hb : s.busy = false)
    (h : s.schedule = cmdTurn i :: rest) :
    step s = .next { cmdWrite (encode i) s with schedule := rest } := by
  rw [step_host s (.wr32 offCmd (encode i)) (by rw [h, List.head?_cons]; rfl),
    hostTurn_cmdWrite (s := s.turnTaken) _ hb, turnTaken_of_cons h]
  rfl

/-- The engine's step over a pending word, by what the command does in a state that differs outside the
block alone. -/
theorem step_engine_of_exec {s t : State} {i : Instr} (ts : List Turn) (l : List ReadValue)
    (hb : s.busy = true) (hi : decode s.pending = .ok i) (h : exec i s = .next t) :
    step { s with schedule := .engine :: ts, hostReads := l } =
      .next { t with schedule := ts, hostReads := l } := by
  rw [step_of_decode (s := { s with schedule := .engine :: ts, hostReads := l })
    (engineNext_of_cons rfl) hb hi]
  exact exec_outside i s t ts l h

/-- A run over `n` polls returns the STATUS word `n` times and changes nothing else (R97). -/
theorem runFrom_polls (n k : Nat) {s : State} {rest : List Turn}
    (h : s.schedule = List.replicate n statusTurn ++ rest) :
    runFrom (n + k) s = runFrom k { s with
      schedule := rest
      hostReads := s.hostReads ++ List.replicate n (.word (statusWord s)) } := by
  induction n generalizing s with
  | zero =>
    obtain rfl : s.schedule = rest := h
    rw [Nat.zero_add, List.replicate_zero, List.append_nil]
  | succ n ih =>
    rw [List.replicate_succ, List.cons_append] at h
    rw [Nat.succ_add, runFrom_succ_next _ _ _ (step_statusTurn h), ih rfl, List.append_assoc,
      List.replicate_succ]
    rfl

/-- Settles O59: the run by its four parts. -/
theorem execPseudoInstructionRunsTheCommand : Obligations.ExecPseudoInstructionRunsTheCommand := by
  intro s i n rest hb hwf hsched
  obtain ⟨t, ht, -⟩ := exec_completes i (cmdWrite (encode i) s)
  refine ⟨t, ht, ?_⟩
  have hturns : s.schedule =
      cmdTurn i :: (List.replicate n statusTurn ++ .engine :: statusTurn :: rest) := by
    rw [hsched, HostOp.turns, waitTurns, List.cons_append, List.append_assoc]
    rfl
  have hengine := step_engine_of_exec (statusTurn :: rest)
    (s.hostReads ++ List.replicate n (.word (statusWord (cmdWrite (encode i) s)))) rfl
    (decode_encode hwf) ht
  calc runFrom (n + 3) s
    _ = runFrom (n + 2) { cmdWrite (encode i) s with
          schedule := List.replicate n statusTurn ++ .engine :: statusTurn :: rest } :=
        runFrom_succ_next _ _ _ (step_cmdTurn hb hturns)
    _ = runFrom 2 { cmdWrite (encode i) s with
          schedule := .engine :: statusTurn :: rest
          hostReads := s.hostReads ++
            List.replicate n (.word (statusWord (cmdWrite (encode i) s))) } :=
        runFrom_polls n 2 rfl
    _ = runFrom 1 { t with
          schedule := statusTurn :: rest
          hostReads := s.hostReads ++
            List.replicate n (.word (statusWord (cmdWrite (encode i) s))) } :=
        runFrom_succ_next _ _ _ hengine
    _ = _ := runFrom_succ_next _ _ _ (step_statusTurn rfl)

end Sys2Proof.Machine
end

section
/-! The engine's side of the buffer: every command ends in its one step and writes STATUS and RESULT alone
(R70, R200), and how it ends rests on what it reads alone, so that it does not see the bytes past BUF_LEN
(R51) and, issued again, ends the same way (R62, R140). -/

namespace Sys2Proof.Machine

/-- `t` is what R70 lets a command from `s` leave: it has completed, STATUS and RESULT alone may differ, and
every byte of BUF reads as before. -/
structure EngineFrame (s t : State) : Prop where
  busy : t.busy = false
  done : t.done = true
  differ : onlyStatusAndResultDiffer s t
  bytes : ∀ a, rawByte t a = rawByte s a

/-- The engine does not write BUF_LEN (R70). -/
theorem EngineFrame.bufLen {s t : State} (h : EngineFrame s t) : t.bufLen = s.bufLen := by
  have hdiffer : t = _ := h.differ
  rw [hdiffer]

/-- An executed command keeps R70's frame, whichever of its four ways it ends. -/
theorem engineFrame_of_exec {i : Instr} {s t : State} (h : exec i s = .next t) : EngineFrame s t := by
  obtain ⟨u, hu, hform⟩ := exec_completes i s
  obtain rfl : u = t := by simpa [hu] using h
  rcases hform with ⟨-, v, rfl⟩ | ⟨-, c, -, rfl⟩ | ⟨-, -, rfl⟩ | ⟨-, c, -, rfl⟩
  all_goals exact ⟨rfl, rfl, rfl, rawByte_congr rfl rfl⟩

/-- Every command completes within R70's frame (R200). -/
theorem exec_engineFrame (i : Instr) (s : State) : ∃ t, exec i s = .next t ∧ EngineFrame s t := by
  obtain ⟨t, ht, -⟩ := exec_completes i s
  exact ⟨t, ht, engineFrame_of_exec ht⟩

/-- So does the engine's step over any pending word: an illegal one raises E_ILLEGAL (R90, R93). -/
theorem engineTurn_engineFrame {s : State} (hb : s.busy = true) :
    ∃ t, engineTurn s = .next t ∧ EngineFrame s t := by
  cases hd : decode s.pending with
  | ok i =>
    rw [engineTurn_of_decode hb hd]
    exact exec_engineFrame i s
  | error e =>
    exact ⟨raiseError .illegal s, by rw [engineTurn, if_pos hb, executePending, hd],
      rfl, rfl, rfl, rawByte_congr rfl rfl⟩

/-- Settles O28: the frame of a command, and of the engine's step. -/
theorem commandsWriteOnlyStatusAndResult : Obligations.CommandsWriteOnlyStatusAndResult := by
  refine ⟨fun i s => ?_, fun s hb => ?_⟩
  · obtain ⟨t, ht, hf⟩ := exec_engineFrame i s
    exact ⟨t, ht, hf.busy, hf.done, hf.differ, hf.bytes⟩
  · obtain ⟨t, ht, hf⟩ := engineTurn_engineFrame hb
    exact ⟨t, ht, hf.busy, hf.done, hf.differ, hf.bytes⟩

/-- Two states whose stored bytes agree over a slot's first five bytes have the same header there (R150). -/
theorem headerAt_of_bytes {s t : State} (base : Nat)
    (h : ∀ j, j < 5 → rawByte t (base + j) = rawByte s (base + j)) :
    headerAt t base = headerAt s base := by
  have h0 : rawByte t base = rawByte s base := h 0 (by omega)
  rw [headerAt, headerAt, h0, h 1 (by omega), h 2 (by omega), h 3 (by omega), h 4 (by omega)]

/-- The command reads the same in `t` as in `s`: BUF_LEN and the bytes below it, the record (which VROOT
does not read), and the header of a slot that CLDESC may read. -/
structure SameReads (i : Instr) (s t : State) : Prop where
  len : t.bufLen = s.bufLen
  bytes : ∀ a, a < s.bufLen.toNat → rawByte t a = rawByte s a
  record : i ≠ .vroot → t.rootOk = s.rootOk ∧ t.extCnt = s.extCnt
  header : ∀ k, i = .cldesc k → s.rootOk = true →
    headerAt t (slotOffset k) = headerAt s (slotOffset k)

/-- `u` from `s` and `v` from `t` are one ending of a command: the same value or the same error, and the
same change of the record. -/
inductive SameEnding (s t : State) : State → State → Prop
  | succeeds (x : DWord) : SameEnding s t (finish x s) (finish x t)
  | fails (c : ErrorCode) : SameEnding s t (raiseError c s) (raiseError c t)
  | latches (x : DWord) (n : Byte) :
      SameEnding s t (finish x (latchRoot n s)) (finish x (latchRoot n t))
  | withdraws (c : ErrorCode) : SameEnding s t (raiseError c (clearRoot s)) (raiseError c (clearRoot t))

/-- The extractor sees BUF_LEN and the bytes below it alone (R51). -/
theorem SameReads.readBits_eq {i : Instr} {s t : State} (h : SameReads i s t) (o b n : Nat) :
    readBits t o b n = readBits s o b n :=
  readBits_of_bytes o b n fun k _ => paddedByte_of_bytes h.len h.bytes (o + k)

/-- A block below BUF_LEN has the same sum (R130). -/
theorem SameReads.sum8_eq {i : Instr} {s t : State} (h : SameReads i s t) {k : Nat}
    (hk : blockBelowEnd s (blockOffset k) = true) : sum8 t (blockOffset k) = sum8 s (blockOffset k) := by
  have hend := (blockBelowEnd_iff s k).1 hk
  exact sum8_of_bytes _ fun j _ => h.bytes _ (by rw [blockOffset_eq]; omega)

/-- CLEXT passes its checks only on a block below BUF_LEN (R172, R175). -/
theorem blockBelowEnd_of_extensionFailure_none {x : Nat} {s : State} (h : extensionFailure x s = none) :
    blockBelowEnd s (blockOffset x) = true := by
  unfold extensionFailure at h
  repeat' split at h
  all_goals simp_all

/-- VROOT passes its checks only with the root's 128 bytes below BUF_LEN (R133). -/
theorem rootLength_of_rootFailure_none {s : State} (h : rootFailure s = none) : 128 ≤ s.bufLen.toNat :=
  (rootLengthOk_iff s).1 ((rootFailure_none_iff s).1 h).1

/-- VROOT's RESULT depends on the root block alone (R132). -/
theorem SameReads.rootResult_eq {i : Instr} {s t : State} (h : SameReads i s t)
    (hlen : 128 ≤ s.bufLen.toNat) : rootResult t = rootResult s := by
  rw [rootResult, rootResult, h.bytes 126 (by omega), h.bytes 19 (by omega), h.bytes 18 (by omega)]

/-- CLEXT's RESULT depends on the first two bytes of the block alone (R175). -/
theorem SameReads.extensionResult_eq {i : Instr} {s t : State} (h : SameReads i s t) {x : Nat}
    (hx : blockBelowEnd s (blockOffset x) = true) :
    extensionResult (blockOffset x) t = extensionResult (blockOffset x) s := by
  have hend := (blockBelowEnd_iff s x).1 hx
  have h0 : rawByte t (blockOffset x) = rawByte s (blockOffset x) :=
    h.bytes _ (by rw [blockOffset_eq]; omega)
  have h1 : rawByte t (blockOffset x + 1) = rawByte s (blockOffset x + 1) :=
    h.bytes _ (by rw [blockOffset_eq]; omega)
  rw [extensionResult, extensionResult, h0, h1]

/-- A command that reads the same in two states ends the same way in both. -/
theorem sameEnding_of_sameReads {i : Instr} {s t : State} (h : SameReads i s t) :
    ∃ u v, exec i s = .next u ∧ exec i t = .next v ∧ SameEnding s t u v := by
  cases i with
  | rdbits o b n =>
    simp only [exec, execRdbits, h.readBits_eq]
    split
    · exact ⟨_, _, rfl, rfl, .fails .domain⟩
    · split
      · exact ⟨_, _, rfl, rfl, .fails .domain⟩
      · exact ⟨_, _, rfl, rfl, .succeeds _⟩
  | rdbyte o =>
    simp only [exec, execRdbyte, h.readBits_eq]
    exact ⟨_, _, rfl, rfl, .succeeds _⟩
  | rdbytes o n =>
    simp only [exec, execRdbytes, h.readBits_eq]
    split
    · exact ⟨_, _, rfl, rfl, .fails .domain⟩
    · split
      · exact ⟨_, _, rfl, rfl, .succeeds _⟩
      · exact ⟨_, _, rfl, rfl, .succeeds _⟩
  | cksum k =>
    have hend : blockBelowEnd t (blockOffset k) = blockBelowEnd s (blockOffset k) := by
      rw [blockBelowEnd, blockBelowEnd, h.len]
    simp only [exec, execCksum, hend]
    split
    · rename_i hk
      rw [h.sum8_eq hk]
      exact ⟨_, _, rfl, rfl, .succeeds _⟩
    · exact ⟨_, _, rfl, rfl, .fails .range⟩
  | vroot =>
    simp only [exec, execVroot, rootFailure_of_bytes h.len h.bytes]
    cases hf : rootFailure s with
    | none =>
      have hlen := rootLength_of_rootFailure_none hf
      simp only [h.rootResult_eq hlen, h.bytes 126 (by omega)]
      exact ⟨_, _, rfl, rfl, .latches _ _⟩
    | some c => exact ⟨_, _, rfl, rfl, .withdraws c⟩
  | cldesc k =>
    obtain ⟨hroot, -⟩ := h.record (by simp)
    simp only [exec, execCldesc, hroot]
    split
    · exact ⟨_, _, rfl, rfl, .fails .noRoot⟩
    · rename_i hr
      rw [h.header k rfl (by simpa using hr)]
      exact ⟨_, _, rfl, rfl, .succeeds _⟩
  | clext x =>
    obtain ⟨hroot, hext⟩ := h.record (by simp)
    simp only [exec, execClext, extensionFailure_of_bytes x h.len hroot hext h.bytes]
    cases hf : extensionFailure x s with
    | none =>
      simp only [h.extensionResult_eq (blockBelowEnd_of_extensionFailure_none hf)]
      exact ⟨_, _, rfl, rfl, .succeeds _⟩
    | some c => exact ⟨_, _, rfl, rfl, .fails c⟩

/-- A command issued again reads what it read the first time: the buffer is as it was, and the record too
unless the command is VROOT. -/
theorem sameReads_of_issuedAgain {i : Instr} {w : Word} {s t : State}
    (h : exec i (cmdWrite w s) = .next t) : SameReads i (cmdWrite w s) (cmdWrite w t) := by
  have hf := engineFrame_of_exec h
  have hbytes (a : Nat) : rawByte (cmdWrite w t) a = rawByte (cmdWrite w s) a := hf.bytes a
  exact
    { len := hf.bufLen
      bytes := fun a _ => hbytes a
      record := fun hi => onlyVrootWritesTheRecord i (cmdWrite w s) t hi h
      header := fun k _ _ => headerAt_of_bytes _ fun j _ => hbytes _ }

/-- One ending of a command, over a state where it is issued and over its own outcome where it is issued
again, leaves one state: STATUS and RESULT are overwritten alike. -/
theorem SameEnding.eq_of_issuedAgain {w : Word} {s s' u v : State}
    (h : SameEnding (cmdWrite w s) s' u v) (hs' : s' = cmdWrite w u) : v = u := by
  cases h with
  | succeeds x | fails c | latches x n | withdraws c =>
    subst hs'
    rfl

/-- Settles O22: the second run reads the same, so it ends the same way. -/
theorem everyCommandIsIdempotent : Obligations.EveryCommandIsIdempotent := by
  intro i w s t h
  obtain ⟨u, v, hu, hv, hend⟩ := sameEnding_of_sameReads (sameReads_of_issuedAgain h)
  obtain rfl : t = u := by simpa [h] using hu
  rw [hv, hend.eq_of_issuedAgain rfl]

/-- The header of every slot lies below BUF_LEN where a record is latched: slot 3's ends at offset 113, and
the root's 128 bytes are below BUF_LEN (R40, R150). -/
theorem slotHeader_lt_bufLen {s : State} (h : s.Inv) (hr : s.rootOk = true) {k : Nat} (hk : k < 4) :
    slotOffset k + 4 < s.bufLen.toNat := by
  obtain ⟨hvalid, -⟩ := h.root hr
  have := rootLength_of_rootFailure_none hvalid
  rw [slotOffset_eq]
  omega

/-- A well-formed command over the invariants reads nothing of BUF at or past BUF_LEN. -/
theorem sameReads_of_bytesBelowLen {i : Instr} {s : State} (m : Memory) (e : Nat) (hwf : i.wf = true)
    (hinv : s.Inv)
    (hbytes : ∀ a, a < s.bufLen.toNat → rawByte { s with buf := m, epoch := e } a = rawByte s a) :
    SameReads i s { s with buf := m, epoch := e } where
  len := rfl
  bytes := hbytes
  record _ := ⟨rfl, rfl⟩
  header := by
    rintro k rfl hr
    have hlt := slotHeader_lt_bufLen hinv hr ((wf_cldesc_iff k).1 hwf)
    exact headerAt_of_bytes _ fun j hj => hbytes _ (by omega)

/-- Settles O52: the command reads the same in both states, and each way to end leaves BUF as it is. -/
theorem engineNeverSeesBytesPastTheEnd : Obligations.EngineNeverSeesBytesPastTheEnd := by
  intro i s t u hwf hinv ht hbytes hexec
  generalize t.buf = m, t.epoch = e at ht ⊢
  subst ht
  obtain ⟨u', v, hu, hv, hend⟩ := sameEnding_of_sameReads (sameReads_of_bytesBelowLen m e hwf hinv hbytes)
  obtain rfl : u = u' := by simpa [hexec] using hu
  rw [hv]
  cases hend with
  | succeeds x | fails c | latches x n | withdraws c => rfl

end Sys2Proof.Machine
end

section
/-! The host's side of the window: where its accesses stand on the bus, which are refused, which are
hazards, and what those that go on do to the buffer and to BUF_LEN (R52 to R61, R209, R210). -/

namespace Sys2Proof.Machine

/-- Settles O42: the offset of an address is its distance from the base, so the base cancels. -/
theorem windowAddressesAreOffsetsFromTheBase : Obligations.WindowAddressesAreOffsetsFromTheBase := by
  refine ⟨fun off => ?_, fun addr off h => ?_⟩
  · rw [windowOffset, busAddress, if_pos (Nat.le_add_right _ _), Nat.add_sub_cancel_left,
      offsetAt_eq_some_iff]
  · rw [windowOffset] at h
    split at h
    · rename_i hbase
      rw [busAddress, (offsetAt_eq_some_iff _ off).1 h, Nat.add_sub_cancel' hbase]
    · cases h

/-! ### Which accesses go on -/

/-- The widths and alignments of R53. -/
theorem admits_iff (bits : Nat) (off : BitVec 16) :
    admits bits off = true ↔
      (off.toNat < 0x8000 ∧ bits = 32 ∧ off.toNat % 4 = 0) ∨ (0x8000 ≤ off.toNat ∧ bits = 8) := by
  rcases Nat.lt_or_ge off.toNat 0x8000 with hlt | hp
  · simp [admits_of_register bits off hlt, hlt, Nat.not_le.2 hlt]
  · simp [admits_of_port bits off hp, hp, Nat.not_lt.2 hp]

/-- A turn is refused exactly when its access is not admitted, whatever BUSY is (R210). -/
theorem hostTurn_refused_iff (a : HostAccess) (s : State) :
    hostTurn a s = .refused .accessNotAdmitted ↔ a.admitted = false := by
  rcases hostTurn_cases a s with ⟨ha, h⟩ | ⟨ha, -, -, h⟩ | ⟨ha, -, h⟩
  all_goals simp [h, ha]

/-- A turn is a hazard exactly when its access is admitted, is no STATUS read and finds BUSY = 1 (R209). -/
theorem hostTurn_fault_iff (a : HostAccess) (s : State) :
    hostTurn a s = .fault .hostHazard ↔ s.busy = true ∧ a.admitted = true ∧ a.isStatusRead = false := by
  rcases hostTurn_cases a s with ⟨ha, h⟩ | ⟨ha, hb, hr, h⟩ | ⟨ha, hok, h⟩
  · simp [h, ha]
  · simp [h, ha, hb, hr]
  · simpa [h, ha] using hok

/-- A turn that goes on has made an admitted access. -/
theorem hostTurn_next {a : HostAccess} {s t : State} (h : hostTurn a s = .next t) :
    a.admitted = true ∧ t = performAccess a s := by
  rcases hostTurn_cases a s with ⟨-, h'⟩ | ⟨-, -, -, h'⟩ | ⟨ha, -, h'⟩
  · simp [h'] at h
  · simp [h'] at h
  · exact ⟨ha, by simpa [h'] using h.symm⟩

/-- Settles O39: the one access that is a STATUS read is the 32-bit read at its offset. -/
theorem hazardIsExactlyAnAccessWhileBusy : Obligations.HazardIsExactlyAnAccessWhileBusy := by
  intro a s
  rw [hostTurn_fault_iff, ← Bool.not_eq_true a.isStatusRead, isStatusRead_iff]

/-- Settles O40: a read and a write are admitted by the same widths and alignments. -/
theorem refusalIsExactlyAnInadmissibleWidth : Obligations.RefusalIsExactlyAnInadmissibleWidth := by
  intro s bits off v
  rw [hostTurn_refused_iff, hostTurn_refused_iff, HostAccess.admitted, HostAccess.admitted,
    ← admits_iff, Bool.not_eq_true]
  exact ⟨Iff.rfl, Iff.rfl⟩

/-- Settles O41: of the forms of an admitted access, the three writes are ruled out, a read adds to the
record and an ignored write changes nothing. -/
theorem onlyThreeAccessesChangeState : Obligations.OnlyThreeAccessesChangeState := by
  intro a s t h hcmd hlen hport
  obtain ⟨ha, rfl⟩ := hostTurn_next h
  rcases performAccess_forms a s ha with ⟨bits, off, rfl, e⟩ | ⟨w, rfl, -⟩ | ⟨w, rfl, -⟩ |
    ⟨off, w, hp, rfl, -⟩ | ⟨off, w, rfl, -, -, -, e⟩
  · rw [e]
    rfl
  · exact absurd rfl (hcmd w)
  · exact absurd rfl (hlen w)
  · exact absurd rfl (hport off w hp)
  · rw [e]

/-! ### The writes with no command pending -/

/-- A 32-bit write among the registers writes the register its offset names (R24, R54, R57). -/
theorem hostTurn_registerWrite {s : State} (off : BitVec 16) (v : Word) (hb : s.busy = false)
    (hlt : off.toNat < 0x8000) (hal : off.toNat % 4 = 0) :
    hostTurn (.write 32 off v) s = .next (registerWrite off v s) := by
  have ha : (HostAccess.write 32 off v).admitted = true := (admits_iff 32 off).2 (.inl ⟨hlt, rfl, hal⟩)
  rw [hostTurn_idle _ s hb ha, performAccess, inPort_eq_false off hlt, if_neg Bool.false_ne_true]

/-- An 8-bit write at the BUF port writes the byte its offset names (R54, R55). -/
theorem hostTurn_portWrite {s : State} (off : BitVec 16) (v : Word) (hb : s.busy = false)
    (hp : 0x8000 ≤ off.toNat) : hostTurn (.write 8 off v) s = .next (portWrite off v s) := by
  have ha : (HostAccess.write 8 off v).admitted = true := (admits_iff 8 off).2 (.inr ⟨hp, rfl⟩)
  rw [hostTurn_idle _ s hb ha, performAccess, if_pos ((inPort_iff off).2 hp)]

/-- A byte write of a BUF address below BUF_CAP stores the low byte of the data there (R55). -/
theorem hostTurn_bufWrite {s : State} {a : Nat} (v : Word) (hb : s.busy = false)
    (ha : a < s.bufCap.toNat) (hcap : s.bufCap.toNat ≤ 32768) :
    hostTurn (.write 8 (BitVec.ofNat 16 (0x8000 + a)) v) s = .next (bufWrite a (v.extractLsb' 0 8) s) := by
  have hwin : a < 32768 := by omega
  have haddr := portAddress_portOffset a hwin
  rw [hostTurn_portWrite _ v hb (by rw [portOffset_toNat a hwin]; omega), portWrite, haddr, if_pos ha]

/-- 16 bits hold every length that the largest capacity allows (R34). -/
theorem clampedLen_toNat {cap : Word} (v : Word) (h : cap.toNat ≤ 32768) :
    (clampedLen cap v).toNat = min v.toNat cap.toNat := by
  rw [clampedLen, BitVec.toNat_ofNat]
  omega

/-- Settles O33: what the buffer write does to each byte, and the padding past BUF_LEN, which it keeps. -/
theorem bufferWriteStoresOneByte : Obligations.BufferWriteStoresOneByte := by
  intro s a v hb ha hcap
  exact ⟨_, hostTurn_bufWrite v hb ha hcap, by rw [rawByte_bufWrite, if_pos rfl],
    fun b hne => by rw [rawByte_bufWrite, if_neg hne], rfl, fun hlen => paddedByte_of_le hlen⟩

/-- Settles O34: the BUF_LEN register written and read. -/
theorem bufLenWriteClamps : Obligations.BufLenWriteClamps := by
  intro s v hb hcap
  have hwrite : hostTurn (.write 32 offBufLen v) s = .next (lenWrite v s) :=
    hostTurn_registerWrite offBufLen v hb (by decide) (by decide)
  have hread : hostTurn (.read 32 offBufLen) s = .next (returnRead (.word (s.bufLen.setWidth 32)) s) :=
    hostTurn_registerRead offBufLen hb (by decide) (by decide)
  exact ⟨⟨_, hwrite, clampedLen_toNat v hcap, rfl⟩, hread⟩

/-! ### The accesses that are ignored -/

/-- Every register other than CMD and BUF_LEN ignores writes (R54). -/
theorem registerWrite_ignored {off : BitVec 16} (v : Word) (s : State) (hcmd : off ≠ offCmd)
    (hlen : off ≠ offBufLen) : registerWrite off v s = s := by
  rw [registerWrite, if_neg hcmd, if_neg hlen]

/-- An offset at or past 0x18 is none of the registers of R23. -/
theorem ne_register_of_le {off : BitVec 16} (h : 0x18 ≤ off.toNat) (r : BitVec 16) (hr : r.toNat < 0x18) :
    off ≠ r := by
  rintro rfl
  omega

/-- The reserved offsets read as 0 (R54). -/
theorem registerValue_reserved {off : BitVec 16} (s : State) (h : 0x18 ≤ off.toNat) :
    registerValue off s = 0#32 := by
  have hne := ne_register_of_le h
  rw [registerValue, if_neg (hne offStatus (by decide)), if_neg (hne offResultLo (by decide)),
    if_neg (hne offResultHi (by decide)), if_neg (hne offBufLen (by decide)),
    if_neg (hne offBufCap (by decide))]

/-- At and past BUF_CAP the port's offset names no byte of BUF (R54). -/
theorem portAddress_ge {off : BitVec 16} {cap : Nat} (h : 0x8000 + cap ≤ off.toNat) :
    ¬ portAddress off < cap := by
  rw [portAddress_eq]
  omega

/-- An 8-bit read at or past BUF_CAP returns 0 (R54). -/
theorem hostTurn_portRead_past {s : State} (off : BitVec 16) (hb : s.busy = false)
    (h : 0x8000 + s.bufCap.toNat ≤ off.toNat) :
    hostTurn (.read 8 off) s = .next (returnRead (.byte 0#8) s) := by
  have hp : 0x8000 ≤ off.toNat := by omega
  have ha : (HostAccess.read 8 off).admitted = true := (admits_iff 8 off).2 (.inr ⟨hp, rfl⟩)
  have hv : readValue off s = .byte 0#8 := by
    rw [readValue, if_pos ((inPort_iff off).2 hp), portValue, if_neg (portAddress_ge h)]
  rw [hostTurn_idle _ s hb ha, performAccess, hv]

/-- An 8-bit write at or past BUF_CAP is ignored (R54). -/
theorem hostTurn_portWrite_past {s : State} (off : BitVec 16) (v : Word) (hb : s.busy = false)
    (h : 0x8000 + s.bufCap.toNat ≤ off.toNat) : hostTurn (.write 8 off v) s = .next s := by
  rw [hostTurn_portWrite off v hb (by omega), portWrite, if_neg (portAddress_ge h)]

/-- Settles O37: the reserved offsets, the read-only registers, and the port at and past BUF_CAP. -/
theorem reservedOffsetsReadZeroAndIgnoreWrites : Obligations.ReservedOffsetsReadZeroAndIgnoreWrites := by
  refine fun s off v hb => ⟨fun hge hlt hal => ?_, fun hro => ?_, fun hpast => ?_⟩
  · have hne := ne_register_of_le hge
    have hread := hostTurn_registerRead off hb hlt hal
    have hwrite := hostTurn_registerWrite off v hb hlt hal
    rw [registerValue_reserved s hge] at hread
    rw [registerWrite_ignored v s (hne offCmd (by decide)) (hne offBufLen (by decide))] at hwrite
    exact ⟨hread, hwrite⟩
  · rcases hro with rfl | rfl | rfl | rfl
    all_goals
      rw [hostTurn_registerWrite _ v hb (by decide) (by decide),
        registerWrite_ignored v s (by decide) (by decide)]
  · exact ⟨hostTurn_portRead_past off hb hpast, hostTurn_portWrite_past off v hb hpast⟩

/-! ### `load` -/

/-- The data of a byte write carries the byte in its low bits (R55, R96). -/
theorem extractLsb'_setWidth_byte (v : Byte) : (v.setWidth 32).extractLsb' 0 8 = v := by
  ext i hi
  simp [hi, show i < 32 by omega]

/-- One byte of a load is the buffer write of it (R55, R97). -/
theorem step_loadByte {s : State} {a : Nat} {v : Byte} {vs : List Byte} {rest : List Turn}
    (hb : s.busy = false) (ha : a < s.bufCap.toNat) (hcap : s.bufCap.toNat ≤ 32768)
    (h : s.schedule = loadTurns a (v :: vs) ++ rest) :
    step s = .next (bufWrite a v { s with schedule := loadTurns (a + 1) vs ++ rest }) := by
  rw [loadTurns_cons a v vs (by omega), List.cons_append] at h
  rw [step_host s _ (by rw [h, List.head?_cons]), hostTurn_bufWrite (s := s.turnTaken) _ hb ha hcap,
    extractLsb'_setWidth_byte, turnTaken_of_cons h]

/-- Settles O57: by induction on the bytes. The first byte is stored where the later ones are not, and the
rest of the load is a load from the next address. -/
theorem loadStoresTheBytes : Obligations.LoadStoresTheBytes := by
  intro s a bytes rest hb hcap hfit hsched
  induction bytes generalizing s a with
  | nil => exact ⟨s, rfl, hsched, fun k hk => absurd hk (Nat.not_lt_zero k), fun _ _ => rfl, hb, rfl, rfl⟩
  | cons v vs ih =>
    rw [List.length_cons] at hfit
    have hrestfit : a + 1 + vs.length ≤ s.bufCap.toNat := by omega
    have hstep := step_loadByte hb (by omega) hcap hsched
    obtain ⟨t, hrun, hrest, hin, hout, hbusy, hlen, hres⟩ :=
      ih (bufWrite a v { s with schedule := loadTurns (a + 1) vs ++ rest }) (a + 1) hb hcap
        hrestfit rfl
    refine ⟨t, (runFrom_succ_next _ _ _ hstep).trans hrun, hrest, fun k hk => ?_, fun b hbout => ?_,
      hbusy, hlen, hres⟩
    · cases k with
      | zero => rw [hout _ (by omega), rawByte_bufWrite, if_pos (Nat.add_zero a), List.getElem_cons_zero]
      | succ k =>
        rw [← Nat.add_assoc, Nat.add_right_comm, hin k (by simpa using hk), List.getElem_cons_succ]
    · rw [List.length_cons] at hbout
      rw [hout b (by omega), rawByte_bufWrite, if_neg (by omega)]
      exact rawByte_congr rfl rfl b

end Sys2Proof.Machine
end

section
/-! The opcode map row by row (R81, R89 to R91): the word a row selects is the assembler's word of the
command that the row reads from it, so the opcode tells the rows apart, and decoding inverts assembling. -/

namespace Sys2Proof

/-- The row drops no bit of a word it selects (R91): the operands it reads fit their fields and assemble
to that word again. -/
def OpcodeRow.Faithful (r : OpcodeRow) : Prop :=
  ∀ w : Word, r.selects w = true → (r.fields w).wf = true ∧ encode (r.fields w) = w

/-- R82: OP and the reserved bit 27 stand above COUNT, BITOFF and BYTEOFF. -/
theorem rowRdbits_faithful : rowRdbits.Faithful := by
  intro w h
  have hq := (rowRdbits_selects w).1 h
  have ho := byteoffField_eq w
  have hb := wordField_eq w 19 16
  have hn := wordField_eq w 26 20
  have hofit : byteoffField w < 65536 := by omega
  have hbfit : wordField w 19 16 < 16 := by omega
  have hnfit : wordField w 26 20 < 128 := by omega
  refine ⟨(wf_rdbits_iff _ _ _).2 ⟨hofit, hbfit, hnfit⟩, BitVec.eq_of_toNat_eq ?_⟩
  rw [rowRdbits, encode_rdbits_toNat _ _ _ hofit hbfit hnfit]
  omega

/-- R83: OP and twelve reserved bits stand above BYTEOFF. -/
theorem rowRdbyte_faithful : rowRdbyte.Faithful := by
  intro w h
  have hq := (rowRdbyte_selects w).1 h
  have ho := byteoffField_eq w
  have hfit : byteoffField w < 65536 := by omega
  refine ⟨(wf_rdbyte_iff _).2 hfit, BitVec.eq_of_toNat_eq ?_⟩
  rw [rowRdbyte, encode_rdbyte_toNat _ hfit]
  omega

/-- R84: OP and eight reserved bits stand above NBYTES and BYTEOFF. -/
theorem rowRdbytes_faithful : rowRdbytes.Faithful := by
  intro w h
  have hq := (rowRdbytes_selects w).1 h
  have ho := byteoffField_eq w
  have hn := wordField_eq w 19 16
  have hofit : byteoffField w < 65536 := by omega
  have hnfit : wordField w 19 16 < 16 := by omega
  refine ⟨(wf_rdbytes_iff _ _).2 ⟨hofit, hnfit⟩, BitVec.eq_of_toNat_eq ?_⟩
  rw [rowRdbytes, encode_rdbytes_toNat _ _ hofit hnfit]
  omega

/-- R85: OP and twenty reserved bits stand above BLK. -/
theorem rowCksum_faithful : rowCksum.Faithful := by
  intro w h
  have hq := (rowCksum_selects w).1 h
  have hk := wordField_eq w 7 0
  have hfit : wordField w 7 0 < 256 := by omega
  refine ⟨(wf_cksum_iff _).2 hfit, BitVec.eq_of_toNat_eq ?_⟩
  rw [rowCksum, encode_cksum_toNat _ hfit]
  omega

/-- R86: the row has the one word. -/
theorem rowVroot_faithful : rowVroot.Faithful := by
  intro w h
  have hq := (rowVroot_selects w).1 h
  have hword : (encode .vroot).toNat = 0x50000000 := by decide
  refine ⟨rfl, BitVec.eq_of_toNat_eq ?_⟩
  rw [rowVroot, hword]
  omega

/-- R87: OP and 26 reserved bits stand above SLOT. -/
theorem rowCldesc_faithful : rowCldesc.Faithful := by
  intro w h
  have hq := (rowCldesc_selects w).1 h
  have hk := wordField_eq w 1 0
  have hfit : wordField w 1 0 < 4 := by omega
  refine ⟨(wf_cldesc_iff _).2 hfit, BitVec.eq_of_toNat_eq ?_⟩
  rw [rowCldesc, encode_cldesc_toNat _ hfit]
  omega

/-- R85: OP and twenty reserved bits stand above XIDX. -/
theorem rowClext_faithful : rowClext.Faithful := by
  intro w h
  have hq := (rowClext_selects w).1 h
  have hk := wordField_eq w 7 0
  have hfit : wordField w 7 0 < 256 := by omega
  refine ⟨(wf_clext_iff _).2 hfit, BitVec.eq_of_toNat_eq ?_⟩
  rw [rowClext, encode_clext_toNat _ hfit]
  omega

/-- What holds of the seven rows holds of the opcode map (R89). -/
theorem forall_mem_opcodeRows (p : OpcodeRow → Prop) :
    (∀ r ∈ opcodeRows, p r) ↔ p rowRdbits ∧ p rowRdbyte ∧ p rowRdbytes ∧ p rowCksum ∧ p rowVroot ∧
      p rowCldesc ∧ p rowClext := by
  simp [opcodeRows]

/-- No row of the opcode map drops a bit (R91). -/
theorem faithful_of_mem : ∀ r ∈ opcodeRows, r.Faithful :=
  (forall_mem_opcodeRows _).2 ⟨rowRdbits_faithful, rowRdbyte_faithful, rowRdbytes_faithful,
    rowCksum_faithful, rowVroot_faithful, rowCldesc_faithful, rowClext_faithful⟩

/-- A word that decodes is read by a row that selects it (R90). -/
theorem exists_row_of_decode {w : Word} {i : Instr} (h : decode w = .ok i) :
    ∃ r ∈ opcodeRows, r.selects w = true ∧ r.fields w = i := by
  rw [decode] at h
  split at h
  · rename_i r hr
    have hsel : r.selects w = true := List.find?_some (p := fun r : OpcodeRow => r.selects w) hr
    exact ⟨r, List.mem_of_find?_eq_some hr, hsel, Except.ok.inj h⟩
  · cases h

/-- Decoding and assembling are inverse to each other (R90, R91, R95). -/
theorem decode_eq_ok_iff (w : Word) (i : Instr) : decode w = .ok i ↔ i.wf = true ∧ encode i = w := by
  constructor
  · intro h
    obtain ⟨r, hr, hsel, rfl⟩ := exists_row_of_decode h
    exact faithful_of_mem r hr w hsel
  · rintro ⟨hwf, rfl⟩
    exact decode_encode hwf

/-- Settles O1: the assembler's word decodes, constructor by constructor in `decode_encode`. -/
theorem decodeOfEncodeIsTheCommand : Obligations.DecodeOfEncodeIsTheCommand :=
  fun _ hwf => decode_encode hwf

/-- Settles O2: the row that read the word is faithful. -/
theorem encodeOfDecodeIsTheWord : Obligations.EncodeOfDecodeIsTheWord :=
  fun w i => (decode_eq_ok_iff w i).1

/-- Settles O5: each word is what the assembler makes of its command. -/
theorem specExampleWordsDecode : Obligations.SpecExampleWordsDecode := by
  simp only [Obligations.SpecExampleWordsDecode, decode_eq_ok_iff]
  decide

/-! ### The opcode tells the rows apart (R80, R89, R90) -/

/-- The OP field of an assembled word is the command's opcode (R80, R89). -/
theorem opField_encode {i : Instr} (h : i.wf = true) : opField (encode i) = i.op := by
  cases i with
  | rdbits o b n => exact Laws.EncodedOp.rdbits o b n h
  | rdbyte o => exact Laws.EncodedOp.rdbyte o h
  | rdbytes o n => exact Laws.EncodedOp.rdbytes o n h
  | cksum k => exact Laws.EncodedOp.cksum k h
  | vroot => exact Laws.EncodedOp.vroot h
  | cldesc k => exact Laws.EncodedOp.cldesc k h
  | clext k => exact Laws.EncodedOp.clext k h

/-- A row selects only words with the opcode of the command it reads. -/
theorem OpcodeRow.Faithful.opField_eq {r : OpcodeRow} (hr : r.Faithful) {w : Word}
    (h : r.selects w = true) : opField w = (r.fields w).op := by
  obtain ⟨hwf, hw⟩ := hr w h
  rw [← opField_encode hwf, hw]

/-- Different rows read commands with different opcodes (R89). -/
theorem opcodeRows_pairwise_op_ne :
    opcodeRows.Pairwise fun r q => ∀ w : Word, (r.fields w).op ≠ (q.fields w).op := by
  simp [opcodeRows, rowRdbits, rowRdbyte, rowRdbytes, rowCksum, rowVroot, rowCldesc, rowClext, Instr.op]

/-- Settles O3: a word has one OP field, and the rows' opcodes differ. -/
theorem opcodeRowsSelectDisjointWords : Obligations.OpcodeRowsSelectDisjointWords :=
  opcodeRows_pairwise_op_ne.imp_of_mem fun hr hq hne w ⟨hselr, hselq⟩ =>
    hne w (((faithful_of_mem _ hr).opField_eq hselr).symm.trans
      ((faithful_of_mem _ hq).opField_eq hselq))

end Sys2Proof
end

section
/-! The words the decoder rejects (R90 to R92): those that no row selects, named by their OP field; and
what the engine does with one that is pending (R93). -/

namespace Sys2Proof.Machine

/-- OP is the quotient by `2 ^ 28`: there is no bit above it (R80). -/
theorem opField_eq_quotient (w : Word) : opField w = w.toNat / 2 ^ 28 := by
  have hw := w.isLt
  rw [opField, wordField_eq]
  omega

/-- A word is rejected exactly when no row selects it, under the name that its OP decides. -/
theorem decode_eq_error_iff (w : Word) (e : DecodeError) :
    decode w = .error e ↔ (∀ r ∈ opcodeRows, ¬ r.selects w = true) ∧
      e = if opField w = 0 ∨ 8 ≤ opField w then .illegalOpcode else .reservedBitSet := by
  rw [← List.find?_eq_none, decode]
  split
  · rename_i r hr
    simp [hr]
  · rename_i hnone
    simp [hnone, eq_comm]

/-- The two kinds of illegal word exclude each other (R91, R92). -/
theorem not_illegalOpcode_of_reservedBitSet {w : Word} (h : reservedBitSet w) : ¬ illegalOpcode w := by
  unfold illegalOpcode
  rcases h with ⟨hop, -⟩ | ⟨hop, -⟩ | ⟨hop, -⟩ | ⟨hop, -⟩ | ⟨hop, -⟩ | ⟨hop, -⟩ | ⟨hop, -⟩
  all_goals omega

/-- A row of the opcode map selects the words of its OP whose reserved bits are clear (R81, R89). -/
theorem selects_iff_op_and_reserved_zero (w : Word) :
    (rowRdbits.selects w = true ↔ w.toNat / 2 ^ 28 = 1 ∧ w.toNat / 2 ^ 27 % 2 = 0) ∧
    (rowRdbyte.selects w = true ↔ w.toNat / 2 ^ 28 = 2 ∧ w.toNat / 2 ^ 16 % 2 ^ 12 = 0) ∧
    (rowRdbytes.selects w = true ↔ w.toNat / 2 ^ 28 = 3 ∧ w.toNat / 2 ^ 20 % 2 ^ 8 = 0) ∧
    (rowCksum.selects w = true ↔ w.toNat / 2 ^ 28 = 4 ∧ w.toNat / 2 ^ 8 % 2 ^ 20 = 0) ∧
    (rowVroot.selects w = true ↔ w.toNat / 2 ^ 28 = 5 ∧ w.toNat % 2 ^ 28 = 0) ∧
    (rowCldesc.selects w = true ↔ w.toNat / 2 ^ 28 = 6 ∧ w.toNat / 2 ^ 2 % 2 ^ 26 = 0) ∧
    (rowClext.selects w = true ↔ w.toNat / 2 ^ 28 = 7 ∧ w.toNat / 2 ^ 8 % 2 ^ 20 = 0) := by
  rw [rowRdbits_selects, rowRdbyte_selects, rowRdbytes_selects, rowCksum_selects, rowVroot_selects,
    rowCldesc_selects, rowClext_selects]
  refine ⟨?_, ?_, ?_, ?_, ?_, ?_, ?_⟩
  all_goals omega

/-- No row selects a word exactly when it is illegal (R90). -/
theorem no_row_selects_iff (w : Word) :
    (∀ r ∈ opcodeRows, ¬ r.selects w = true) ↔ illegalOpcode w ∨ reservedBitSet w := by
  obtain ⟨h1, h2, h3, h4, h5, h6, h7⟩ := selects_iff_op_and_reserved_zero w
  rw [forall_mem_opcodeRows, h1, h2, h3, h4, h5, h6, h7, illegalOpcode, reservedBitSet]
  by_cases hop : w.toNat / 2 ^ 28 = 0 ∨ 8 ≤ w.toNat / 2 ^ 28
  · simp only [hop, true_or, iff_true]
    omega
  · obtain ⟨hpos, hlt⟩ : 0 < w.toNat / 2 ^ 28 ∧ w.toNat / 2 ^ 28 < 8 := by omega
    generalize w.toNat / 2 ^ 28 = op at hpos hlt ⊢
    interval_cases op
    all_goals simp

/-- An undefined OP is what the decoder calls an illegal opcode (R92). -/
theorem op_undefined_iff (w : Word) : (opField w = 0 ∨ 8 ≤ opField w) ↔ illegalOpcode w := by
  rw [opField_eq_quotient, illegalOpcode]

/-- Settles O4: the rejected words are the illegal ones, and the two kinds exclude each other. -/
theorem decoderRejectsExactlyTheIllegalWords : Obligations.DecoderRejectsExactlyTheIllegalWords := by
  intro w
  rw [decode_eq_error_iff, decode_eq_error_iff, no_row_selects_iff]
  by_cases hop : illegalOpcode w
  · have hres : ¬ reservedBitSet w := fun hr => not_illegalOpcode_of_reservedBitSet hr hop
    rw [if_pos ((op_undefined_iff w).2 hop)]
    simp [hop, hres]
  · rw [if_neg (mt (op_undefined_iff w).1 hop)]
    simp [hop]

/-- The engine's turn over a pending word that does not decode raises E_ILLEGAL (R90). -/
theorem engineTurn_of_error {s : State} {e : DecodeError} (hb : s.busy = true)
    (he : decode s.pending = .error e) : engineTurn s = .next (raiseError .illegal s) := by
  rw [engineTurn, if_pos hb, executePending, he]

/-- Settles O9: the decoder rejects either kind of illegal word, and E_ILLEGAL is ECODE 1. -/
theorem illegalWordChangesOnlyStatus : Obligations.IllegalWordChangesOnlyStatus := by
  intro s hb hillegal
  have hnone := (no_row_selects_iff s.pending).2 hillegal
  exact engineTurn_of_error hb ((decode_eq_error_iff s.pending _).2 ⟨hnone, rfl⟩)

end Sys2Proof.Machine
end

section
/-! `wait` and the other pseudo-instructions (R97): the engine's step within a wait, and what each
expansion leaves of the busy protocol (R209, R234). -/

namespace Sys2Proof.Machine

/-! ### The end of `wait` -/

/-- Bit 0 of the STATUS word is BUSY (R26). -/
theorem statusWord_busy (s : State) : (statusWord s).getLsbD 0 = s.busy :=
  (BitVec.getLsbD_append ..).trans (by simp [flagBit])

/-- Bit 1 of the STATUS word is DONE (R26). -/
theorem statusWord_done (s : State) : (statusWord s).getLsbD 1 = s.done :=
  (BitVec.getLsbD_append ..).trans ((BitVec.getLsbD_append ..).trans (by simp [flagBit]))

/-- The engine has no part in the schedule or in what the host has read (R70). -/
theorem EngineFrame.outside {s t : State} (h : EngineFrame s t) :
    t.schedule = s.schedule ∧ t.hostReads = s.hostReads := by
  have hdiffer : t = _ := h.differ
  rw [hdiffer]
  exact ⟨rfl, rfl⟩

/-- The engine's step with a command pending completes it and spends the turn (R27, R200). -/
theorem step_engine_completes {s : State} {rest : List Turn} (hb : s.busy = true)
    (h : s.schedule = .engine :: rest) :
    ∃ t, step s = .next t ∧ t.busy = false ∧ t.done = true ∧ t.schedule = rest ∧
      t.hostReads = s.hostReads := by
  obtain ⟨t, ht, hframe⟩ := engineTurn_engineFrame (s := s.turnTaken) hb
  obtain ⟨hsched, hreads⟩ := hframe.outside
  refine ⟨t, (step_engineNext s (engineNext_of_cons h)).trans ht, hframe.busy, hframe.done, ?_, hreads⟩
  rw [hsched, turnTaken_of_cons h]

/-- Settles O55: the polls change nothing, the engine completes the command, and the last poll sees it. -/
theorem waitEnds : Obligations.WaitEnds := by
  intro s n rest hb hsched
  have hturns : s.schedule = List.replicate n statusTurn ++ .engine :: statusTurn :: rest := by
    rw [hsched, waitTurns, List.append_assoc]
    rfl
  obtain ⟨t, hengine, hbusy, hdone, hlast, hreads⟩ := step_engine_completes (s := { s with
    schedule := .engine :: statusTurn :: rest
    hostReads := s.hostReads ++ List.replicate n (.word (statusWord s)) }) hb rfl
  refine ⟨{ t with schedule := rest, hostReads := t.hostReads ++ [.word (statusWord t)] }, statusWord t,
    ?_, hbusy, hdone, rfl, by rw [hreads], (statusWord_busy s).trans hb, (statusWord_busy t).trans hbusy,
    (statusWord_done t).trans hdone⟩
  rw [runFrom_polls n 2 hturns, runFrom_succ_next _ _ _ hengine,
    runFrom_succ_next _ _ _ (step_statusTurn hlast), runFrom_zero]

/-! ### The busy protocol, turn by turn -/

/-- The engine's turn leaves no command pending. -/
theorem obeysProtocol_engine (b : Bool) (ts : List Turn) :
    obeysProtocol b (.engine :: ts) = obeysProtocol false ts := by
  cases b
  all_goals rfl

/-- A STATUS read is allowed at any time (R209). -/
theorem obeysProtocol_statusTurn (b : Bool) (ts : List Turn) :
    obeysProtocol b (statusTurn :: ts) = obeysProtocol b ts := by
  cases b
  all_goals rfl

/-- An idle block admits the CMD write, and a command is then pending (R24). -/
theorem obeysProtocol_cmdTurn (i : Instr) (ts : List Turn) :
    obeysProtocol false (cmdTurn i :: ts) = obeysProtocol true ts := rfl

/-- An idle block stays idle under an admitted access that is no CMD write. -/
theorem obeysProtocol_host_idle {a : HostAccess} (ts : List Turn) (ha : a.admitted = true)
    (hc : a.isCmdWrite = false) : obeysProtocol false (.host a :: ts) = obeysProtocol false ts := by
  rw [obeysProtocol, ha, hc, Bool.true_and]

/-- Any number of polls is allowed at any time. -/
theorem obeysProtocol_polls (b : Bool) (n : Nat) (ts : List Turn) :
    obeysProtocol b (List.replicate n statusTurn ++ ts) = obeysProtocol b ts := by
  induction n with
  | zero => rfl
  | succ n ih => rw [List.replicate_succ, List.cons_append, obeysProtocol_statusTurn, ih]

/-- `wait` keeps the protocol from any block and leaves it idle (R97, R234). -/
theorem obeysProtocol_wait (b : Bool) (n : Nat) (ts : List Turn) :
    obeysProtocol b (waitTurns n ++ ts) = obeysProtocol false ts := by
  rw [waitTurns, List.append_assoc, obeysProtocol_polls]
  exact (obeysProtocol_engine b _).trans (obeysProtocol_statusTurn false ts)

/-- `load` keeps an idle block idle: its bytes go to the BUF port, or past the window to nothing of BFX
(R52, R97). -/
theorem obeysProtocol_load (a : Nat) (bytes : List Byte) (ts : List Turn) :
    obeysProtocol false (loadTurns a bytes ++ ts) = obeysProtocol false ts := by
  induction bytes generalizing a with
  | nil => rfl
  | cons v vs ih =>
    rcases Nat.lt_or_ge a 32768 with hin | hpast
    · have hport : 0x8000 ≤ (BitVec.ofNat 16 (0x8000 + a)).toNat := by
        rw [portOffset_toNat a hin]
        exact Nat.le_add_right _ _
      have hadmitted : (HostAccess.write 8 (BitVec.ofNat 16 (0x8000 + a)) (v.setWidth 32)).admitted = true :=
        (admits_iff 8 _).2 (.inr ⟨hport, rfl⟩)
      rw [loadTurns_cons a v vs hin, List.cons_append, obeysProtocol_host_idle _ hadmitted rfl, ih]
    · rw [loadTurns_past a _ hpast, List.nil_append]

/-- Settles O58: by the pseudo-instruction; a bare access is excluded. -/
theorem pseudoInstructionsKeepTheProtocol : Obligations.PseudoInstructionsKeepTheProtocol := by
  intro op rest _ hbare
  cases op with
  | access a => exact absurd rfl (hbare a)
  | cmd i => exact obeysProtocol_cmdTurn i rest
  | wait polls => exact obeysProtocol_wait false polls rest
  | exec i polls => exact (obeysProtocol_cmdTurn i _).trans (obeysProtocol_wait true polls rest)
  | setlen n => exact obeysProtocol_host_idle rest rfl rfl
  | load a bytes => exact obeysProtocol_load a bytes rest
  | result =>
    exact (obeysProtocol_host_idle _ rfl rfl).trans (obeysProtocol_host_idle rest rfl rfl)
  | status => exact obeysProtocol_statusTurn false rest
  | engineStep => exact obeysProtocol_engine false rest

end Sys2Proof.Machine
end

section
/-! The bit-field extractor (R110 to R115) and the operand ranges of RDBITS, RDBYTES and CKSUM (R111, R113,
R131): how each command completes, within its range and outside it, and the field bit by bit. -/

namespace Sys2Proof.Machine

/-! ### How the commands complete -/

/-- RDBITS within its domain (R111, R202). -/
theorem exec_rdbits_of_inDomain (s : State) (o : Nat) {b n : Nat} (hb : b ≤ 7) (h1 : 1 ≤ n) (h64 : n ≤ 64) :
    exec (.rdbits o b n) s = .next (succeededWith (readBits s o b n) s) := by
  have hbitoff : ¬ b > Config.maxBitoff := Nat.not_lt.2 hb
  have hcount : ¬ (n < 1 ∨ n > Config.maxBits) := not_or.2 ⟨Nat.not_lt.2 h1, Nat.not_lt.2 h64⟩
  rw [exec, execRdbits, if_neg hbitoff, if_neg hcount]
  rfl

/-- RDBITS outside its domain (R111, R203). -/
theorem exec_rdbits_of_outOfDomain (s : State) (o : Nat) {b n : Nat} (h : 8 ≤ b ∨ n = 0 ∨ 65 ≤ n) :
    exec (.rdbits o b n) s = .next (failedWith 2#4 s) := by
  rw [exec, execRdbits]
  by_cases hbitoff : b > Config.maxBitoff
  · rw [if_pos hbitoff]
    rfl
  · have hcount : n < 1 ∨ n > Config.maxBits :=
      (h.resolve_left hbitoff).imp_left Nat.lt_one_iff.2
    rw [if_neg hbitoff, if_pos hcount]
    rfl

/-- RDBYTE is total (R112, R202). -/
theorem exec_rdbyte (s : State) (o : Nat) :
    exec (.rdbyte o) s = .next (succeededWith (readBits s o 0 8) s) := rfl

/-- A field of no bits is 0. -/
theorem readBits_zero (s : State) (o b : Nat) : readBits s o b 0 = 0#64 :=
  BitVec.and_zero

/-- RDBYTES of up to 8 bytes; the empty read is the field of no bits (R113, R202). -/
theorem exec_rdbytes_of_le (s : State) (o : Nat) {n : Nat} (h : n ≤ 8) :
    exec (.rdbytes o n) s = .next (succeededWith (readBits s o 0 (8 * n)) s) := by
  have hwindow : ¬ n > Config.windowBytes := Nat.not_lt.2 h
  rw [exec, execRdbytes, if_neg hwindow]
  by_cases h0 : n = 0
  · rw [if_pos h0, h0, readBits_zero]
    rfl
  · rw [if_neg h0]
    rfl

/-- RDBYTES of more bytes than the window has (R113, R203). -/
theorem exec_rdbytes_of_gt (s : State) (o : Nat) {n : Nat} (h : 9 ≤ n) :
    exec (.rdbytes o n) s = .next (failedWith 2#4 s) := by
  have hwindow : n > Config.windowBytes := h
  rw [exec, execRdbytes, if_pos hwindow]
  rfl

/-- CKSUM of a block that does not lie below BUF_LEN (R131, R203). -/
theorem exec_cksum_of_pastEnd (s : State) {blk : Nat} (h : s.bufLen.toNat < 128 * blk + 128) :
    exec (.cksum blk) s = .next (failedWith 8#4 s) := by
  have hend : ¬ blockBelowEnd s (blockOffset blk) = true :=
    fun hb => Nat.not_le.2 h ((blockBelowEnd_iff s blk).1 hb)
  rw [exec, execCksum, if_neg hend]
  rfl

/-- Settles O18: by the commands' range checks. -/
theorem operandsOutOfRangeFail : Obligations.OperandsOutOfRangeFail := fun s =>
  ⟨fun o _ _ => exec_rdbits_of_outOfDomain s o, fun o _ => exec_rdbytes_of_gt s o,
    fun _ => exec_cksum_of_pastEnd s⟩

/-! ### The field, bit by bit -/

/-- Settles O11. -/
theorem rdbitsExtractsTheField : Obligations.RdbitsExtractsTheField :=
  fun s o b n hb h1 h64 =>
    ⟨readBits s o b n, exec_rdbits_of_inDomain s o hb h1 h64, fun i _ => readBits_getLsbD s o b n i h64⟩

/-- Bits from the field's width on are 0 (R110). -/
theorem readBits_getLsbD_of_width_le (s : State) (o b : Nat) {n i : Nat} (hn : n ≤ 64) (h : n ≤ i) :
    (readBits s o b n).getLsbD i = false := by
  rw [readBits_getLsbD s o b n i hn, decide_eq_false (by omega), Bool.false_and]

/-- Bits that would lie past bit 63 of the window are 0 (R115). -/
theorem readBits_getLsbD_of_window_le (s : State) (o : Nat) {b n i : Nat} (hn : n ≤ 64) (h : 64 ≤ b + i) :
    (readBits s o b n).getLsbD i = false := by
  rw [readBits_getLsbD s o b n i hn, decide_eq_false (by omega), Bool.false_and]

/-- Settles O15: the window's bits end at 63, and its bytes are the eight from `o`. -/
theorem windowHasEightBytes : Obligations.WindowHasEightBytes :=
  ⟨fun s o _ _ _ _ hn h => readBits_getLsbD_of_window_le s o hn h,
    fun _ _ o b n h => readBits_of_bytes o b n h⟩

/-- Byte `k` of a field of `n` whole bytes is the byte at offset `o + k` (R113). -/
theorem readBits_extract_byte (s : State) (o : Nat) {n k : Nat} (hn : n ≤ 8) (hk : k < n) :
    (readBits s o 0 (8 * n)).extractLsb' (8 * k) 8 = paddedByte s (o + k) := by
  refine BitVec.eq_of_getLsbD_eq fun j hj => ?_
  have hbyte : (0 + (8 * k + j)) / 8 = k := by omega
  have hbit : (0 + (8 * k + j)) % 8 = j := by omega
  have hin : 8 * k + j < 8 * n ∧ 0 + (8 * k + j) < 64 := by omega
  rw [BitVec.getLsbD_extractLsb', readBits_getLsbD s o 0 (8 * n) _ (by omega), hbyte, hbit,
    decide_eq_true hin, decide_eq_true hj, Bool.true_and, Bool.true_and]

/-- Settles O13: by the bytes of the field and the zeros above it. -/
theorem rdbytesPacksTheBytes : Obligations.RdbytesPacksTheBytes :=
  fun s o n hn =>
    ⟨readBits s o 0 (8 * n), exec_rdbytes_of_le s o hn, fun _ hk => readBits_extract_byte s o hn hk,
      fun _ hi => readBits_getLsbD_of_width_le s o 0 (Nat.mul_le_mul_left 8 hn) hi⟩

/-! ### The specialisation laws (R114) -/

/-- A narrower field is the full one under the mask. -/
theorem readBits_eq_full_and_lowMask (s : State) (o b : Nat) {n : Nat} (hn : n ≤ 64) :
    readBits s o b n = readBits s o b 64 &&& lowMask n := by
  refine BitVec.eq_of_getLsbD_eq fun i (hi : i < 64) => ?_
  rw [BitVec.getLsbD_and, lowMask_getLsbD n i hn, readBits_getLsbD s o b n i hn,
    readBits_getLsbD s o b 64 i (Nat.le_refl 64)]
  by_cases h : i < n
  · simp [h, hi]
  · simp [h]

/-- The mask of fewer than 64 bits (R110). -/
theorem lowMask_of_lt {n : Nat} (h : n < 64) : lowMask n = BitVec.ofNat 64 (2 ^ n - 1) :=
  if_neg (Nat.ne_of_lt h)

/-- A field within one byte is that byte shifted and masked. -/
theorem readBits_within_byte (s : State) (o : Nat) {b n : Nat} (h : b + n ≤ 8) :
    readBits s o b n = ((paddedByte s o >>> b) &&& BitVec.ofNat 8 (2 ^ n - 1)).setWidth 64 := by
  refine BitVec.eq_of_getLsbD_eq fun i (hi : i < 64) => ?_
  rw [readBits_getLsbD s o b n i (by omega), BitVec.getLsbD_setWidth, BitVec.getLsbD_and,
    BitVec.getLsbD_ushiftRight, BitVec.getLsbD_ofNat, Nat.testBit_two_pow_sub_one]
  by_cases hin : i < n
  · have hbyte : (b + i) / 8 = 0 := by omega
    have hbit : (b + i) % 8 = b + i := by omega
    simp [hin, hi, hbyte, hbit, show b + i < 64 by omega, show i < 8 by omega]
  · simp [hin]

/-- The field of a whole byte is the byte zero-extended (R112). -/
theorem readBits_whole_byte (s : State) (o : Nat) : readBits s o 0 8 = (paddedByte s o).setWidth 64 := by
  have hmask : BitVec.ofNat 8 (2 ^ 8 - 1) = BitVec.allOnes 8 := rfl
  rw [readBits_within_byte s o (b := 0) (n := 8) (Nat.le_refl 8), BitVec.ushiftRight_zero, hmask,
    BitVec.and_allOnes]

/-- Settles O12: the byte's field is the byte. -/
theorem rdbyteReadsOneByte : Obligations.RdbyteReadsOneByte := fun s o => by
  rw [exec_rdbyte, readBits_whole_byte]

/-- Settles O14: the first two laws by the value each command completes with, the others by the field. -/
theorem extractorSpecialisationLaws : Obligations.ExtractorSpecialisationLaws := by
  refine ⟨fun s o => ?_, fun s o n h1 h8 => ?_, fun s o b n _ _ h64 => ?_, fun s o b n _ h => ?_⟩
  · rw [exec_rdbits_of_inDomain s o (by omega) (by omega) (by omega), exec_rdbyte]
  · rw [exec_rdbits_of_inDomain s o (by omega) (by omega) (by omega), exec_rdbytes_of_le s o h8]
  · rw [readBits_eq_full_and_lowMask s o b (Nat.le_of_lt h64), lowMask_of_lt h64]
  · exact readBits_within_byte s o h

end Sys2Proof.Machine
end

section
/-! The checksum validator and VROOT (R130 to R138): the reducer's sum in the spec's own terms, and how
each command completes where its checks pass and at the first one that fails. -/

namespace Sys2Proof.Machine

/-! ### The reducer -/

/-- The reducer's 8-bit sum is the block's total modulo 256 (R130). -/
theorem sum8_toNat_eq_blockTotal (s : State) (a : Nat) : (sum8 s a).toNat = blockTotal s a % 256 := by
  rw [sum8_toNat, byteSum_eq_sum]
  rfl

/-- A block's total, its bytes taken in any order (R130). -/
theorem blockTotal_eq_of_perm (s : State) (a : Nat) {order : List Nat} (h : order.Perm (List.range 128)) :
    blockTotal s a = (order.map fun k => (rawByte s (a + k)).toNat).sum :=
  (h.map _).sum_eq.symm

/-- Settles O19: the sum modulo 256 is of the total, and the total is a sum of naturals. -/
theorem sumOrderDoesNotMatter : Obligations.SumOrderDoesNotMatter := fun s a order h => by
  rw [sum8_toNat_eq_blockTotal, blockTotal_eq_of_perm s a h]

/-- The reducer's sum as RESULT reports it (R131). -/
theorem sum8_setWidth (s : State) (a : Nat) :
    (sum8 s a).setWidth 64 = BitVec.ofNat 64 (blockTotal s a % 256) := by
  rw [← sum8_toNat_eq_blockTotal, BitVec.ofNat_toNat]

/-- CKSUM of a block that lies below BUF_LEN (R131, R202). -/
theorem exec_cksum_of_belowEnd (s : State) {blk : Nat} (h : 128 * blk + 128 ≤ s.bufLen.toNat) :
    exec (.cksum blk) s = .next (succeededWith ((sum8 s (128 * blk)).setWidth 64) s) := by
  rw [exec, execCksum, if_pos ((blockBelowEnd_iff s blk).2 h)]
  rfl

/-- Settles O17. -/
theorem cksumReportsTheByteSum : Obligations.CksumReportsTheByteSum := fun s blk h => by
  rw [exec_cksum_of_belowEnd s h, sum8_setWidth]

/-! ### The cascade of VROOT -/

/-- VROOT where no check fails (R132, R137, R202). -/
theorem exec_vroot_of_valid {s : State} (h : rootFailure s = none) :
    exec .vroot s =
      .next (succeededWith (rootResult s) { s with rootOk := true, extCnt := rawByte s 126 }) := by
  rw [exec, execVroot, h]
  rfl

/-- VROOT with `c` the code of its first failing check (R138, R203). -/
theorem exec_vroot_of_failure {s : State} {c : ErrorCode} (h : rootFailure s = some c) :
    exec .vroot s = .next (failedWith c.number { s with rootOk := false, extCnt := 0#8 }) := by
  rw [exec, execVroot, h]
  rfl

/-- The extension count and the version, byte by byte in RESULT (R132). -/
theorem rootResult_eq_ofNat (s : State) :
    rootResult s = BitVec.ofNat 64
      ((rawByte s 126).toNat * 65536 + (rawByte s 19).toNat * 256 + (rawByte s 18).toNat) := by
  have hbytes : (rawByte s 126 ++ rawByte s 19 ++ rawByte s 18).toNat =
      (rawByte s 126).toNat * 65536 + (rawByte s 19).toNat * 256 + (rawByte s 18).toNat := by
    rw [toNat_append_eq_add, toNat_append_eq_add]
    omega
  rw [← hbytes, BitVec.ofNat_toNat, rootResult]

/-- Settles O20: no check fails, and RESULT is read byte by byte. -/
theorem vrootAcceptsAValidRoot : Obligations.VrootAcceptsAValidRoot := fun s hlen hmagic hsum hversion => by
  have hvalid := (rootFailure_none_iff_valid s).2 ⟨hlen, hmagic, hsum, hversion⟩
  rw [exec_vroot_of_valid hvalid, rootResult_eq_ofNat]

/-- The cascade over the checks in the spec's own terms: the first that fails gives the code (R132). -/
theorem rootFailure_eq_firstFailing (s : State) [Decidable (magicStands s)] [Decidable (versionStands s)] :
    rootFailure s =
      if ¬ 128 ≤ s.bufLen.toNat then some .rootShort
      else if ¬ magicStands s then some .rootMagic
      else if ¬ blockTotal s 0 % 256 = 0 then some .rootChecksum
      else if ¬ versionStands s then some .rootVersion
      else none := by
  simp only [rootFailure, ← Bool.not_eq_true, rootLengthOk_iff, rootMagicOk_iff, rootSumOk_iff,
    rootVersionOk_iff]

/-- Settles O21: in each case the cascade stops at the check that fails. -/
theorem vrootReportsTheFirstFailingCheck : Obligations.VrootReportsTheFirstFailingCheck := by
  classical
  refine fun s => ⟨fun hshort => ?short, fun hlen hmagic => ?magic, fun hlen hmagic hsum => ?checksum,
    fun hlen hmagic hsum hversion => ?version⟩
  case short =>
    have hfail : rootFailure s = some .rootShort := by
      rw [rootFailure_eq_firstFailing, if_pos (Nat.not_le.2 hshort)]
    exact exec_vroot_of_failure hfail
  case magic =>
    have hfail : rootFailure s = some .rootMagic := by
      rw [rootFailure_eq_firstFailing, if_neg (not_not.2 hlen), if_pos hmagic]
    exact exec_vroot_of_failure hfail
  case checksum =>
    have hfail : rootFailure s = some .rootChecksum := by
      rw [rootFailure_eq_firstFailing, if_neg (not_not.2 hlen), if_neg (not_not.2 hmagic), if_pos hsum]
    exact exec_vroot_of_failure hfail
  case version =>
    have hfail : rootFailure s = some .rootVersion := by
      rw [rootFailure_eq_firstFailing, if_neg (not_not.2 hlen), if_neg (not_not.2 hmagic),
        if_neg (not_not.2 hsum), if_pos hversion]
    exact exec_vroot_of_failure hfail

end Sys2Proof.Machine
end

section
/-! The descriptor classifier (R150 to R160): each variant predicate in terms of the header, a rule that
holds gives the classifier's variant whatever stands before it, and how CLDESC completes. -/

namespace Sys2Proof.Machine

/-! ### The variant predicates -/

/-- The header of the display form with the given tag (R152 to R156). -/
def displayHeader (tag : Byte) : Header := ⟨0#8, 0#8, 0#8, tag, 0#8⟩

/-- The tags of the string descriptors (R155). -/
def stringTags : List Byte := [0xFC#8, 0xFF#8, 0xFE#8]

theorem isDisplay_iff (h : Header) (tag : Byte) : h.isDisplay tag = true ↔ h = displayHeader tag := by
  cases h
  simp only [Header.isDisplay, displayHeader, Bool.and_eq_true, beq_iff_eq, Header.mk.injEq, and_assoc]

/-- The pixel clock is not zero where one of its two bytes is not (R151). -/
theorem isDetailedTiming_iff (h : Header) :
    h.isDetailedTiming = true ↔ h.h0 ≠ 0#8 ∨ h.h1 ≠ 0#8 := by
  have hclock : h.h1 ++ h.h0 = 0#16 ↔ h.h0 = 0#8 ∧ h.h1 = 0#8 := by
    have := toNat_append_eq_add h.h1 h.h0
    simp only [← BitVec.toNat_inj, this, BitVec.toNat_ofNat]
    omega
  rw [Header.isDetailedTiming, bne_iff_ne, ne_eq, hclock, not_and_or]

theorem isString_iff (h : Header) :
    h.isString = true ↔ ∃ tag ∈ stringTags, h = displayHeader tag := by
  simp [Header.isString, isDisplay_iff, stringTags, or_assoc]

theorem isManufacturer_iff (h : Header) :
    h.isManufacturer = true ↔ ∃ code : Byte, code.toNat ≤ 15 ∧ h = displayHeader code := by
  cases h with
  | mk h0 h1 h2 h3 h4 =>
    simp only [Header.isManufacturer, displayHeader, Bool.and_eq_true, beq_iff_eq, decide_eq_true_eq,
      Header.mk.injEq]
    constructor
    · rintro ⟨⟨⟨⟨hz0, hz1⟩, hz2⟩, hz4⟩, hcode⟩
      exact ⟨h3, hcode, hz0, hz1, hz2, rfl, hz4⟩
    · rintro ⟨code, hcode, hz0, hz1, hz2, rfl, hz4⟩
      exact ⟨⟨⟨⟨hz0, hz1⟩, hz2⟩, hz4⟩, hcode⟩

/-! ### The priority multiplexer -/

/-- The multiplexer takes the first rule that holds, in the order of R157. -/
theorem classify_fst_eq_firstVariant (h : Header) : (classify h).1 = firstVariant variantRules h := by
  simp only [classify, firstVariant, variantRules, List.find?_cons]
  cases h.isDetailedTiming with | true => rfl | false => ?_
  cases h.isStandardTiming with | true => rfl | false => ?_
  cases h.isWhitePoint with | true => rfl | false => ?_
  cases h.isRangeLimits with | true => rfl | false => ?_
  cases h.isString with | true => rfl | false => ?_
  cases h.isManufacturer with | true => rfl | false => rfl

/-- A manufacturer's code is below every tag that another rule names. -/
theorem isDisplay_displayHeader_of_lt {code tag : Byte} (h : code.toNat < tag.toNat) :
    (displayHeader code).isDisplay tag = false := by
  have hne : code ≠ tag := fun he => Nat.ne_of_lt h (congrArg BitVec.toNat he)
  simpa [← Bool.not_eq_true, isDisplay_iff, displayHeader] using hne

/-- The headers of R156 reach the last rule. -/
theorem classify_displayHeader_of_le {code : Byte} (hcode : code.toNat ≤ 15) :
    classify (displayHeader code) = (.manufacturerDescriptor, .notString) := by
  have hother (tag : Byte) (htag : 15 < tag.toNat) : (displayHeader code).isDisplay tag = false :=
    isDisplay_displayHeader_of_lt (Nat.lt_of_le_of_lt hcode htag)
  have htiming : (displayHeader code).isDetailedTiming = false := by
    simp [← Bool.not_eq_true, isDetailedTiming_iff, displayHeader]
  have hmanufacturer : (displayHeader code).isManufacturer = true :=
    (isManufacturer_iff _).2 ⟨code, hcode, rfl⟩
  simp [classify, htiming, hmanufacturer, Header.isStandardTiming, Header.isWhitePoint,
    Header.isRangeLimits, Header.isString, hother]

/-- A rule that holds gives the classifier's variant, whatever rules stand before it (R158). -/
theorem classify_fst_of_holds (h : Header) : ∀ r ∈ variantRules, r.1 h = true → (classify h).1 = r.2 := by
  simp only [variantRules, List.forall_mem_cons]
  refine ⟨fun hr => ?timing, fun hr => ?standard, fun hr => ?white, fun hr => ?limits, fun hr => ?string,
    fun hr => ?manufacturer, nofun⟩
  case timing => rw [classify, if_pos hr]
  case standard => rw [(isDisplay_iff h _).1 hr]; rfl
  case white => rw [(isDisplay_iff h _).1 hr]; rfl
  case limits => rw [(isDisplay_iff h _).1 hr]; rfl
  case string =>
    obtain ⟨tag, htag, rfl⟩ := (isString_iff h).1 hr
    revert tag
    decide
  case manufacturer =>
    obtain ⟨code, hcode, rfl⟩ := (isManufacturer_iff h).1 hr
    rw [classify_displayHeader_of_le hcode]

/-- What the first rule of a list that holds gives: some rule's variant, or none where no rule holds. -/
theorem firstVariant_cases (rules : List ((Header → Bool) × Variant)) (h : Header) :
    (∃ r ∈ rules, r.1 h = true ∧ firstVariant rules h = r.2) ∨
      ((∀ r ∈ rules, ¬ r.1 h = true) ∧ firstVariant rules h = .noMatch) := by
  unfold firstVariant
  split
  next r hfind =>
    exact .inl ⟨r, List.mem_of_find?_eq_some hfind, by simpa using List.find?_some hfind, rfl⟩
  next hnone => exact .inr ⟨List.find?_eq_none.1 hnone, rfl⟩

/-- Where no rule holds the classifier finds no match. -/
theorem classify_fst_of_none_holds {h : Header} (hnone : ∀ r ∈ variantRules, ¬ r.1 h = true) :
    (classify h).1 = .noMatch := by
  rw [classify_fst_eq_firstVariant]
  rcases firstVariant_cases variantRules h with ⟨r, hr, hholds, -⟩ | ⟨-, hfirst⟩
  · exact absurd hholds (hnone r hr)
  · exact hfirst

/-- Any order of the rules picks the classifier's variant (R158). -/
theorem firstVariant_of_perm {rules : List ((Header → Bool) × Variant)} (hperm : rules.Perm variantRules)
    (h : Header) : firstVariant rules h = (classify h).1 := by
  rcases firstVariant_cases rules h with ⟨r, hr, hholds, hfirst⟩ | ⟨hnone, hfirst⟩
  · rw [hfirst, classify_fst_of_holds h r (hperm.mem_iff.1 hr) hholds]
  · rw [hfirst, classify_fst_of_none_holds fun r hr => hnone r (hperm.mem_iff.2 hr)]

/-- No two rules give the same variant. -/
theorem variantRules_pairwise_ne : variantRules.Pairwise fun r q => r.2 ≠ q.2 := by
  simp [variantRules]

/-- Settles O25: two rules that hold would both give the classifier's variant. -/
theorem validatorOrderDoesNotMatter : Obligations.ValidatorOrderDoesNotMatter := by
  refine fun h => ⟨variantRules_pairwise_ne.imp_of_mem ?_, fun rules hperm => firstVariant_of_perm hperm h⟩
  rintro r q hr hq hne ⟨hrh, hqh⟩
  exact hne ((classify_fst_of_holds h r hr hrh).symm.trans (classify_fst_of_holds h q hq hqh))

/-! ### The variant and the string kind as numbers -/

/-- The codes of R160 number the variants in their order. -/
theorem variant_ofNat_code (v : Variant) : Variant.ofNat v.code.toNat = v := by
  cases v <;> rfl

/-- The codes of R155 number the string kinds in their order. -/
theorem stringKind_ofNat_code (k : StringKind) : StringKind.ofNat k.code.toNat = k := by
  cases k <;> rfl

theorem variantCode_inj {v w : Variant} : v.code.toNat = w.code.toNat ↔ v = w :=
  (Function.LeftInverse.injective variant_ofNat_code).eq_iff

theorem stringKindCode_inj {k l : StringKind} : k.code.toNat = l.code.toNat ↔ k = l :=
  (Function.LeftInverse.injective stringKind_ofNat_code).eq_iff

theorem variantCode_le (v : Variant) : v.code.toNat ≤ 6 := by
  cases v <;> decide

/-- The classifier gives the code of a rule's variant just where the rule holds. -/
theorem classify_variantCode_eq_iff (h : Header) :
    ∀ r ∈ variantRules, ((classify h).1.code.toNat = r.2.code.toNat ↔ r.1 h = true) := by
  intro r hr
  rw [variantCode_inj]
  refine ⟨fun heq => ?_, classify_fst_of_holds h r hr⟩
  rw [classify_fst_eq_firstVariant] at heq
  rcases firstVariant_cases variantRules h with ⟨q, hq, hholds, hfirst⟩ | ⟨-, hfirst⟩
  · have hqr : q = r :=
      List.inj_on_of_nodup_map (List.pairwise_map.2 variantRules_pairwise_ne) hq hr (hfirst.symm.trans heq)
    rwa [← hqr]
  · have hsome : ∀ r ∈ variantRules, Variant.noMatch ≠ r.2 := by simp [variantRules]
    exact absurd (hfirst.symm.trans heq) (hsome r hr)

/-- A string descriptor has its tag's kind, every other header none (R155). -/
theorem classify_snd (h : Header) :
    (classify h).2 = if h.isString then stringKindOf h.h3 else .notString := by
  split
  next hs =>
    obtain ⟨tag, htag, rfl⟩ := (isString_iff h).1 hs
    revert tag
    decide
  next hs =>
    simp [classify, hs, apply_ite Prod.snd]

/-- The string tags name kinds of their own (R155). -/
theorem stringKindOf_tags : (∀ tag ∈ stringTags, stringKindOf tag ≠ .notString) ∧
    ∀ tag ∈ stringTags, ∀ other ∈ stringTags, stringKindOf other = stringKindOf tag → other = tag := by
  decide

/-- A header has a string kind just where it is a string descriptor. -/
theorem classify_kind_ne_iff (h : Header) : (classify h).2 ≠ .notString ↔ h.isString = true := by
  rw [classify_snd]
  split
  next hs =>
    obtain ⟨tag, htag, rfl⟩ := (isString_iff h).1 hs
    exact iff_of_true (stringKindOf_tags.1 tag htag) hs
  next hs => exact iff_of_false (not_not.2 rfl) hs

/-- A header has a tag's string kind just where it is of the display form with that tag (R155). -/
theorem classify_kindCode_eq_iff (h : Header) : ∀ tag ∈ stringTags,
    ((classify h).2.code.toNat = (stringKindOf tag).code.toNat ↔ h = displayHeader tag) := by
  intro tag htag
  have hstring : (displayHeader tag).isString = true := (isString_iff _).2 ⟨tag, htag, rfl⟩
  rw [stringKindCode_inj]
  refine ⟨fun hkind => ?_, fun hdisplay => ?_⟩
  · have hs : h.isString = true :=
      (classify_kind_ne_iff h).1 (hkind ▸ stringKindOf_tags.1 tag htag)
    obtain ⟨other, hother, rfl⟩ := (isString_iff h).1 hs
    rw [classify_snd, if_pos hs] at hkind
    rw [stringKindOf_tags.2 tag htag other hother hkind]
  · rw [hdisplay, classify_snd, if_pos hstring]
    rfl

/-! ### How CLDESC completes -/

/-- CLDESC without a root (R159, R203). -/
theorem exec_cldesc_of_noRoot {s : State} (slot : Nat) (h : s.rootOk = false) :
    exec (.cldesc slot) s = .next (failedWith 7#4 s) := by
  rw [exec, execCldesc, if_pos h]
  rfl

/-- CLDESC over a validated root (R159, R202). -/
theorem exec_cldesc_of_root {s : State} (slot : Nat) (h : s.rootOk = true) :
    exec (.cldesc slot) s =
      .next (succeededWith (descriptorResult (54 + 18 * slot) (headerAt s (54 + 18 * slot))) s) := by
  rw [exec, execCldesc, if_neg (by simp [h])]
  rfl

/-- Settles O23. -/
theorem cldescNeedsARoot : Obligations.CldescNeedsARoot := fun _ slot h => exec_cldesc_of_noRoot slot h

/-- RESULT of CLDESC as a sum of its fields (R159). -/
theorem descriptorResult_eq_ofNat {base : Nat} (hbase : base < 65536) (h : Header) :
    descriptorResult base h = BitVec.ofNat 64
      (base * 65536 + h.h3.toNat * 256 + (classify h).2.code.toNat * 16 + (classify h).1.code.toNat) := by
  have hfields : (BitVec.ofNat 16 base ++ h.h3 ++ 0#2 ++ (classify h).2.code ++ 0#1 ++
      (classify h).1.code).toNat =
      base * 65536 + h.h3.toNat * 256 + (classify h).2.code.toNat * 16 + (classify h).1.code.toNat := by
    simp only [toNat_append_eq_add, BitVec.toNat_ofNat]
    omega
  rw [← hfields, BitVec.ofNat_toNat, descriptorResult]

/-- The header at a slot's base in the spec's own terms. -/
theorem headerIs_display_iff (s : State) (base : Nat) (tag : Byte) :
    headerIs s base 0#8 0#8 0#8 tag 0#8 ↔ headerAt s base = displayHeader tag := by
  rw [headerIs, headerAt, displayHeader, Header.mk.injEq]

/-- Settles O24: the header's bytes decide which rule holds, and so the variant and the string kind. -/
theorem cldescClassifiesTheSlot : Obligations.CldescClassifiesTheSlot := by
  intro s slot hslot hroot
  simp only [headerIs_display_iff]
  have hvariant := classify_variantCode_eq_iff (headerAt s (54 + 18 * slot))
  have hkind := classify_kindCode_eq_iff (headerAt s (54 + 18 * slot))
  simp only [variantRules, stringTags, List.forall_mem_cons] at hvariant hkind
  obtain ⟨htiming, hstandard, hwhite, hlimits, hstring, hmanufacturer, -⟩ := hvariant
  obtain ⟨hname, hserial, htext, -⟩ := hkind
  refine ⟨_, _, ?completes, variantCode_le _, Nat.le_of_lt_succ (BitVec.isLt _),
    htiming.trans (isDetailedTiming_iff _), hstandard.trans (isDisplay_iff _ _),
    hwhite.trans (isDisplay_iff _ _), hlimits.trans (isDisplay_iff _ _), ?string, hname, hserial, htext,
    hmanufacturer.trans (isManufacturer_iff _)⟩
  case completes =>
    rw [exec_cldesc_of_root slot hroot, descriptorResult_eq_ofNat (by omega)]
    rfl
  case string => exact hstring.trans ((classify_kind_ne_iff _).symm.trans stringKindCode_inj.not.symm)

end Sys2Proof.Machine
end

section
/-! The extension-block classifier (R171 to R176): its checks in the spec's own terms, RESULT as a sum of
its fields, and how CLEXT completes where its checks pass and at the first one that fails. -/

namespace Sys2Proof.Machine

/-! ### The checks -/

/-- The checksum of a block in terms of its total (R130, R173). -/
theorem sum8_eq_zero_iff (s : State) (a : Nat) : sum8 s a = 0#8 ↔ blockTotal s a % 256 = 0 := by
  rw [← BitVec.toNat_inj, sum8_toNat_eq_blockTotal]
  rfl

/-- The checks of CLEXT in the spec's own terms: the first that fails gives the code (R175). -/
theorem extensionFailure_eq_firstFailing (x : Nat) (s : State) :
    extensionFailure x s =
      if s.rootOk = false then some .noRoot
      else if x = 0 ∨ s.extCnt.toNat < x then some .domain
      else if s.bufLen.toNat < 128 * x + 128 then some .range
      else if blockTotal s (128 * x) % 256 ≠ 0 then some .extChecksum
      else none := by
  simp only [extensionFailure, Nat.lt_one_iff, gt_iff_lt, ← Bool.not_eq_true (blockBelowEnd _ _),
    blockBelowEnd_iff, Nat.not_le, ne_eq, sum8_eq_zero_iff]
  rw [blockOffset_eq]

/-- With a root and XIDX from 1 to EXTCNT, the block's place and its sum decide (R171, R172, R173). -/
theorem extensionFailure_of_listedBlock {x : Nat} {s : State} (hroot : s.rootOk = true) (hpos : 1 ≤ x)
    (hle : x ≤ s.extCnt.toNat) :
    extensionFailure x s =
      if s.bufLen.toNat < 128 * x + 128 then some .range
      else if blockTotal s (128 * x) % 256 ≠ 0 then some .extChecksum
      else none := by
  rw [extensionFailure_eq_firstFailing, if_neg (by simp [hroot]), if_neg (by omega)]

/-! ### How CLEXT completes -/

/-- CLEXT where no check fails (R175, R202). -/
theorem exec_clext_of_valid {x : Nat} {s : State} (h : extensionFailure x s = none) :
    exec (.clext x) s = .next (succeededWith (extensionResult (128 * x) s) s) := by
  rw [exec, execClext, h]
  rfl

/-- CLEXT with `c` the code of its first failing check (R175, R176, R203). -/
theorem exec_clext_of_failure {x : Nat} {s : State} {c : ErrorCode} (h : extensionFailure x s = some c) :
    exec (.clext x) s = .next (failedWith c.number s) := by
  rw [exec, execClext, h]
  rfl

/-- XVARIANT of a type byte as a number (R174). -/
theorem classifyBlock_code_toNat (type : Byte) :
    (classifyBlock type).code.toNat = if type = 0xF0#8 then 1 else 2 := by
  rw [classifyBlock]
  split <;> rfl

/-- RESULT of CLEXT as a sum of its fields (R175). -/
theorem extensionResult_eq_ofNat {base : Nat} (hbase : base < 65536) (s : State) :
    extensionResult base s = BitVec.ofNat 64
      (base * 2 ^ 32 + (rawByte s (base + 1)).toNat * 65536 + (rawByte s base).toNat * 256 +
        if rawByte s base = 0xF0#8 then 1 else 2) := by
  have hfields : (BitVec.ofNat 16 base ++ 0#8 ++ rawByte s (base + 1) ++ rawByte s base ++ 0#6 ++
      (classifyBlock (rawByte s base)).code).toNat =
      base * 2 ^ 32 + (rawByte s (base + 1)).toNat * 65536 + (rawByte s base).toNat * 256 +
        (classifyBlock (rawByte s base)).code.toNat := by
    simp only [toNat_append_eq_add, BitVec.toNat_ofNat]
    omega
  rw [← classifyBlock_code_toNat, ← hfields, BitVec.ofNat_toNat, extensionResult]

/-- Settles O26: in each case the checks stop at the one that fails. -/
theorem clextReportsTheFirstFailingCheck : Obligations.ClextReportsTheFirstFailingCheck := by
  refine fun s x => ⟨fun hroot => ?root, fun hroot hindex => ?index, fun hroot hpos hle hend => ?range,
    fun hroot hpos hle hend hsum => ?checksum⟩
  case root =>
    have hfail : extensionFailure x s = some .noRoot := by
      rw [extensionFailure_eq_firstFailing, if_pos hroot]
    exact exec_clext_of_failure hfail
  case index =>
    have hfail : extensionFailure x s = some .domain := by
      rw [extensionFailure_eq_firstFailing, if_neg (by simp [hroot]), if_pos hindex]
    exact exec_clext_of_failure hfail
  case range =>
    have hfail : extensionFailure x s = some .range := by
      rw [extensionFailure_of_listedBlock hroot hpos hle, if_pos hend]
    exact exec_clext_of_failure hfail
  case checksum =>
    have hfail : extensionFailure x s = some .extChecksum := by
      rw [extensionFailure_of_listedBlock hroot hpos hle, if_neg (Nat.not_lt.2 hend), if_pos hsum]
    exact exec_clext_of_failure hfail

/-- Settles O27: no check fails, and the block's base is below 2^16 since the block lies below BUF_LEN. -/
theorem clextClassifiesTheBlock : Obligations.ClextClassifiesTheBlock := by
  intro s x hroot hpos hle hend hsum
  have hvalid : extensionFailure x s = none := by
    rw [extensionFailure_of_listedBlock hroot hpos hle, if_neg (Nat.not_lt.2 hend),
      if_neg (not_not.2 hsum)]
  have hbase : 128 * x < 65536 := by
    have := s.bufLen.isLt
    omega
  rw [exec_clext_of_valid hvalid, extensionResult_eq_ofNat hbase]

end Sys2Proof.Machine
end

section
/-! How a command fails (R203, R205, R207): with one of its own codes, and with STATUS alone changed, the
record included for VROOT only. -/

namespace Sys2Proof.Machine

/-- Raising an error leaves the state of a failed command with that error's code (R203). -/
theorem raiseError_eq_failedWith (c : ErrorCode) (s : State) :
    raiseError c s = failedWith (raiseError c s).ecode s := rfl

/-- A command that ends with ERR = 1 from ERR = 0 has raised an error: over the state as it was, or, for
VROOT, over the state with the record withdrawn (R203). -/
theorem exec_fails {i : Instr} {s t : State} (h : exec i s = .next t) (hs : s.err = false)
    (ht : t.err = true) :
    (i ≠ .vroot ∧ ∃ c, t = raiseError c s) ∨ (i = .vroot ∧ ∃ c, t = raiseError c (clearRoot s)) := by
  obtain ⟨u, hu, hform⟩ := exec_completes i s
  obtain rfl : u = t := by simpa [hu] using h
  rcases hform with ⟨-, v, rfl⟩ | ⟨hi, c, -, rfl⟩ | ⟨-, -, rfl⟩ | ⟨hi, c, -, rfl⟩
  · exact absurd (hs.symm.trans ht) Bool.false_ne_true
  · exact .inl ⟨hi, c, rfl⟩
  · exact absurd (hs.symm.trans ht) Bool.false_ne_true
  · exact .inr ⟨hi, c, rfl⟩

/-- Settles O30: a word that does not decode raises E_ILLEGAL, and a command fails over the state as it
was, but for the record that VROOT withdraws. -/
theorem failedCommandsArePrecise : Obligations.FailedCommandsArePrecise := by
  intro s t hb hs h ht
  cases hd : decode s.pending with
  | error e =>
    obtain rfl : raiseError .illegal s = t := by simpa [engineTurn_of_error hb hd] using h
    exact ⟨fun _ => raiseError_eq_failedWith .illegal s, fun hv => nomatch hv⟩
  | ok i =>
    rw [engineTurn_of_decode hb hd] at h
    rcases exec_fails h hs ht with ⟨hi, c, rfl⟩ | ⟨rfl, c, rfl⟩
    · exact ⟨fun _ => raiseError_eq_failedWith c s, fun hv => absurd (Except.ok.inj hv) hi⟩
    · exact ⟨fun hv => absurd rfl hv, fun _ => raiseError_eq_failedWith c (clearRoot s)⟩

/-- Settles O31: success keeps the 0 of the CMD write in ERR and ECODE, and a failure writes one of the
command's codes. -/
theorem commandsReportTheirOwnCodes : Obligations.CommandsReportTheirOwnCodes := by
  intro i w s
  obtain ⟨t, ht, hform⟩ := exec_completes i (cmdWrite w s)
  refine ⟨t, ht, ?_⟩
  rcases hform with ⟨-, v, rfl⟩ | ⟨-, c, hc, rfl⟩ | ⟨-, -, rfl⟩ | ⟨rfl, c, hf, rfl⟩
  · exact .inl ⟨rfl, rfl⟩
  · exact .inr ⟨rfl, c, hc, rfl⟩
  · exact .inl ⟨rfl, rfl⟩
  · exact .inr ⟨rfl, c, rootFailure_mem _ c hf, rfl⟩

end Sys2Proof.Machine
end

section
/-! The engine's step is blind to the turns to come and to what the host has read, so a STATUS read before
it and one after it leave one block (R212). -/

namespace Sys2Proof.Machine

/-- The engine's step over any pending word neither reads nor writes what lies outside the block. -/
theorem engineTurn_outside {s t : State} (ts : List Turn) (l : List ReadValue) (hb : s.busy = true)
    (h : engineTurn s = .next t) :
    engineTurn { s with schedule := ts, hostReads := l } =
      .next { t with schedule := ts, hostReads := l } := by
  cases hd : decode s.pending with
  | ok i =>
    rw [engineTurn_of_decode hb hd] at h
    rw [engineTurn_of_decode (s := { s with schedule := ts, hostReads := l }) hb hd]
    exact exec_outside i s t ts l h
  | error e =>
    obtain rfl : raiseError .illegal s = t := by simpa [engineTurn_of_error hb hd] using h
    exact engineTurn_of_error (s := { s with schedule := ts, hostReads := l }) hb hd

/-- The engine's scheduled turn over any pending word, by what the engine does in a state that differs
outside the block alone. -/
theorem step_engine_outside {s t : State} (ts : List Turn) (l : List ReadValue) (hb : s.busy = true)
    (h : engineTurn s = .next t) :
    step { s with schedule := .engine :: ts, hostReads := l } =
      .next { t with schedule := ts, hostReads := l } := by
  rw [step_engineNext { s with schedule := .engine :: ts, hostReads := l } (engineNext_of_cons rfl)]
  exact engineTurn_outside (s := s) ts l hb h

/-- Settles O56: either order takes the same engine's step, and the read returns the STATUS word of the
state it finds. -/
theorem statusReadCommutesWithTheEngine : Obligations.StatusReadCommutesWithTheEngine := by
  intro s rest hb
  obtain ⟨t, hengine, hframe⟩ := engineTurn_engineFrame hb
  have hstep (ts l) := step_engine_outside (s := s) ts l hb hengine
  refine ⟨{ t with schedule := rest }, statusWord s, statusWord t, ?_, ?_,
    (statusWord_busy s).trans hb, (statusWord_busy t).trans hframe.busy,
    (statusWord_done t).trans hframe.done⟩
  · rw [runFrom_succ_next _ _ _ (step_statusTurn rfl)]
    exact runFrom_succ_next _ _ _ (hstep rest _)
  · rw [runFrom_succ_next _ _ _ (hstep (statusTurn :: rest) s.hostReads)]
    exact runFrom_succ_next _ _ _ (step_statusTurn rfl)

end Sys2Proof.Machine
end

section
/-! The busy protocol and the run (R209, R210, R234): the protocol holds of a state exactly when its step
goes on to a state of which it holds again. -/

namespace Sys2Proof.Machine

/-! ### What a step does to BUSY and to the schedule -/

/-- A host's turn goes on exactly when its access is admitted and, while BUSY = 1, is a STATUS read (R209,
R210). -/
theorem hostTurn_eq_next_iff (a : HostAccess) (s t : State) :
    hostTurn a s = .next t ↔
      a.admitted = true ∧ (s.busy = true → a.isStatusRead = true) ∧ performAccess a s = t := by
  rcases hostTurn_cases a s with ⟨ha, h⟩ | ⟨-, hb, hr, h⟩ | ⟨ha, hbusy, h⟩
  · simp [h, ha]
  · simp [h, hb, hr]
  · simpa [h, ha] using fun _ => hbusy

/-- An admitted access leaves a command pending exactly when one was or the access is the CMD write (R24,
R61). -/
theorem performAccess_busy {a : HostAccess} (s : State) (ha : a.admitted = true) :
    (performAccess a s).busy = (s.busy || a.isCmdWrite) := by
  rcases performAccess_cases a s ha with ⟨v, h, hc⟩ | ⟨h, hc, -⟩ | ⟨w, h, hc, -⟩ | ⟨w, h, hc, -⟩ |
    ⟨k, v, -, h, hc, -⟩
  all_goals simp [h, hc]

/-- Every step that goes on spends one turn of the schedule. -/
theorem step_schedule {s t : State} (h : step s = .next t) : t.schedule = s.schedule.tail := by
  cases stepForm_of_step h
  all_goals rfl

/-- The engine's step goes on from every state and leaves no command pending (R27, R200). -/
theorem step_engineNext_completes {s : State} (he : s.engineNext) :
    ∃ t, step s = .next t ∧ t.busy = false := by
  cases hb : s.busy with
  | false => exact ⟨s.turnTaken, step_of_idle he hb, hb⟩
  | true =>
    obtain ⟨t, ht, hframe⟩ := engineTurn_engineFrame (s := s.turnTaken) hb
    exact ⟨t, (step_engineNext s he).trans ht, hframe.busy⟩

/-! ### The protocol, step by step -/

/-- The reset's turn leaves no command pending (R230). -/
theorem obeysProtocol_reset (b : Bool) (ts : List Turn) :
    obeysProtocol b (.reset :: ts) = obeysProtocol false ts := by
  cases b
  all_goals rfl

/-- No turn left keeps the protocol. -/
theorem obeysProtocol_nil (b : Bool) : obeysProtocol b [] = true := by
  cases b
  all_goals rfl

/-- What the protocol asks of the host's access and of the turns after it. -/
theorem obeysProtocol_host_iff (b : Bool) (a : HostAccess) (ts : List Turn) :
    obeysProtocol b (.host a :: ts) = true ↔
      a.admitted = true ∧ (b = true → a.isStatusRead = true) ∧
        obeysProtocol (b || a.isCmdWrite) ts = true := by
  cases b
  · simp [obeysProtocol]
  · simp [obeysProtocol, and_assoc]

/-- A step that goes on leaves the rest of the schedule to the protocol. -/
theorem exists_step_obeysProtocol_iff {s t : State} (h : step s = .next t) :
    (∃ u, step s = .next u ∧ obeysProtocol u.busy u.schedule = true) ↔
      obeysProtocol t.busy s.schedule.tail = true := by
  simp [h, step_schedule h]

/-- The protocol holds of a state exactly when its step goes on to a state of which it holds. -/
theorem obeysProtocol_iff_step (s : State) :
    obeysProtocol s.busy s.schedule = true ↔
      ∃ t, step s = .next t ∧ obeysProtocol t.busy t.schedule = true := by
  rcases hs : s.schedule with _ | ⟨_ | _ | a, ts⟩
  case nil =>
    obtain ⟨t, ht, -⟩ := step_engineNext_completes (.inl hs)
    rw [exists_step_obeysProtocol_iff ht, hs, List.tail_nil, obeysProtocol_nil, obeysProtocol_nil]
  case cons.reset =>
    have ht : step s = .next (resetEvent s.turnTaken) := step_reset s (by rw [hs, List.head?_cons])
    rw [exists_step_obeysProtocol_iff ht, hs, obeysProtocol_reset, resetEvent_busy, List.tail_cons]
  case cons.engine =>
    obtain ⟨t, ht, hb⟩ := step_engineNext_completes (engineNext_of_cons hs)
    rw [exists_step_obeysProtocol_iff ht, hs, obeysProtocol_engine, hb, List.tail_cons]
  case cons.host =>
    have hstep : step s = hostTurn a s.turnTaken := step_host s a (by rw [hs, List.head?_cons])
    rw [obeysProtocol_host_iff]
    constructor
    · rintro ⟨ha, hbusy, hrest⟩
      have ht := hstep.trans ((hostTurn_eq_next_iff a s.turnTaken _).2 ⟨ha, hbusy, rfl⟩)
      rw [exists_step_obeysProtocol_iff ht, performAccess_busy _ ha, hs]
      exact hrest
    · rintro ⟨t, ht, hrest⟩
      obtain ⟨ha, hbusy, rfl⟩ := (hostTurn_eq_next_iff a _ _).1 (hstep.symm.trans ht)
      rw [step_schedule ht, performAccess_busy _ ha, hs] at hrest
      exact ⟨ha, hbusy, hrest⟩

/-! ### Runs that never stop -/

/-- A run that goes on for `k + 1` steps is a step and a run of `k` steps. -/
theorem runFrom_succ_eq_next_iff (k : Nat) (s u : State) :
    runFrom (k + 1) s = .next u ↔ ∃ t, step s = .next t ∧ runFrom k t = .next u := by
  cases hs : step s with
  | next t => simp [runFrom_succ_next k s t hs]
  | fault r => simp [runFrom_succ_fault k s r hs]
  | refused r => simp [runFrom_succ_refused k s r hs]

/-- A run under the protocol goes on for every number of steps. -/
theorem runFrom_of_obeysProtocol (k : Nat) {s : State} (h : obeysProtocol s.busy s.schedule = true) :
    ∃ t, runFrom k s = .next t := by
  induction k generalizing s with
  | zero => exact ⟨s, runFrom_zero s⟩
  | succ k ih =>
    obtain ⟨t, ht, hrest⟩ := (obeysProtocol_iff_step s).1 h
    obtain ⟨u, hu⟩ := ih hrest
    exact ⟨u, (runFrom_succ_eq_next_iff k s u).2 ⟨t, ht, hu⟩⟩

/-- A run that goes on for as many steps as it has turns keeps the protocol. -/
theorem obeysProtocol_of_runFrom {ts : List Turn} {s u : State} (hs : s.schedule = ts)
    (h : runFrom ts.length s = .next u) : obeysProtocol s.busy s.schedule = true := by
  induction ts generalizing s with
  | nil => rw [hs, obeysProtocol_nil]
  | cons turn ts ih =>
    obtain ⟨t, ht, hrun⟩ := (runFrom_succ_eq_next_iff ts.length s u).1 h
    have hrest : t.schedule = ts := by rw [step_schedule ht, hs, List.tail_cons]
    exact (obeysProtocol_iff_step s).2 ⟨t, ht, ih hrest hrun⟩

/-- Settles O54: the protocol carries a run of any length, and a run over the whole schedule shows it. -/
theorem protocolIsExactlyWhatNeverStops : Obligations.ProtocolIsExactlyWhatNeverStops := by
  refine fun s => ⟨fun h k => runFrom_of_obeysProtocol k h, fun h => ?_⟩
  obtain ⟨u, hu⟩ := h s.schedule.length
  exact obeysProtocol_of_runFrom rfl hu

end Sys2Proof.Machine
end

section
/-! What a caller may rely on (R235, R238, R240): a bit position split into a byte and a bit of it, a record
withdrawn by a change of the buffer, and a run that has ended one step past its turns. -/

namespace Sys2Proof.Machine

/-! ### The normalised command -/

/-- Splitting a bit position into a byte and a bit of it moves no bit of the field (R110, R238). -/
theorem readBits_normalised_getLsbD (s : State) (o p : Nat) {n : Nat} (i : Nat) (h : p % 8 + n ≤ 64) :
    (readBits s (o + p / 8) (p % 8) n).getLsbD i =
      (decide (i < n) && (paddedByte s (o + (p + i) / 8)).getLsbD ((p + i) % 8)) := by
  have hbyte : o + p / 8 + (p % 8 + i) / 8 = o + (p + i) / 8 := by omega
  have hbit : (p % 8 + i) % 8 = (p + i) % 8 := Nat.mod_add_mod p 8 i
  have hwindow : (i < n ∧ p % 8 + i < 64) ↔ i < n := by omega
  rw [readBits_getLsbD s _ _ _ i (by omega), hbyte, hbit, decide_eq_decide.2 hwindow]

/-- Settles O16: the normalised operands are in range, and the split moves no bit. -/
theorem normalisedCommandReadsTheField : Obligations.NormalisedCommandReadsTheField := by
  intro s o p n h1 hfits
  have hbitoff : p % 8 ≤ 7 := Nat.le_of_lt_succ (Nat.mod_lt p (by decide))
  refine ⟨_, exec_rdbits_of_inDomain s (o + p / 8) hbitoff h1 (by omega), fun i hi => ?_, fun i hi => ?_⟩
  · rw [readBits_normalised_getLsbD s o p i hfits, decide_eq_true hi, Bool.true_and]
  · exact readBits_getLsbD_of_width_le s _ _ (by omega) hi

/-! ### The withdrawn record -/

/-- CLEXT without a root (R175, R203). -/
theorem exec_clext_of_noRoot {s : State} (x : Nat) (h : s.rootOk = false) :
    exec (.clext x) s = .next (failedWith 7#4 s) :=
  exec_clext_of_failure (c := .noRoot) (if_pos h)

/-- Settles O43: either write withdraws the record, the CMD write keeps it so, and both commands ask for it
first. -/
theorem bufferChangeWithdrawsTheRecord : Obligations.BufferChangeWithdrawsTheRecord := by
  intro s a slot x b v w t ht
  have hroot : (cmdWrite w t).rootOk = false := by
    rw [cmdWrite_rootOk]
    rcases ht with rfl | rfl
    · exact bufWrite_rootOk a b s
    · exact lenWrite_rootOk v s
  exact ⟨exec_cldesc_of_noRoot slot hroot, exec_clext_of_noRoot x hroot⟩

/-! ### The end of a run -/

/-- A run has ended where no turn is left and no command is pending (R240). -/
theorem finished_of_idle {s : State} (hs : s.schedule = []) (hb : s.busy = false) : s.finished = true := by
  rw [State.finished, hs, hb]
  rfl

/-- A run that goes on one step past its turns spends them all, and the engine's step at the end leaves no
command pending. -/
theorem idle_of_runFrom {ts : List Turn} {s u : State} (hs : s.schedule = ts)
    (h : runFrom (ts.length + 1) s = .next u) : u.schedule = [] ∧ u.busy = false := by
  induction ts generalizing s with
  | nil =>
    obtain ⟨t, ht, hidle⟩ := step_engineNext_completes (.inl hs)
    obtain rfl : t = u := by simpa [runFrom_succ_next 0 s t ht, runFrom_zero] using h
    exact ⟨by rw [step_schedule ht, hs, List.tail_nil], hidle⟩
  | cons turn ts ih =>
    obtain ⟨t, ht, hrun⟩ := (runFrom_succ_eq_next_iff (ts.length + 1) s u).1 h
    exact ih (by rw [step_schedule ht, hs, List.tail_cons]) hrun

/-- Settles O60: the protocol carries the run past its turns, and there it has ended. -/
theorem everyProtocolRunFinishes : Obligations.EveryProtocolRunFinishes := by
  intro s h
  obtain ⟨t, ht⟩ := runFrom_of_obeysProtocol (s.schedule.length + 1) h
  obtain ⟨hempty, hidle⟩ := idle_of_runFrom rfl ht
  exact ⟨t, ht, hempty, finished_of_idle hempty hidle⟩

end Sys2Proof.Machine
end
